-- ==== Sys2Proof/Word.lean ====
section
/-! DEFINITION. The word types of the machine (spec R4, R11, R45, R52). -/

namespace Sys2Proof

/-- One byte of the address space (R30). -/
abbrev Byte := BitVec 8

/-- `XLEN` and `INSN_LEN`: a general register, a program counter, an address, an instruction word (R4). -/
abbrev Word := BitVec 32

/-- `PAIRLEN`: the value held in a pair of registers (R4, R13). -/
abbrev DWord := BitVec 64

/-- A register field of an instruction: a register number from 0 to 31 (R11). -/
abbrev RegNum := BitVec 5

/-- `IMM_COUNT_BITS` and `REG_COUNT_BITS`: a shift count, 0 to 63; no larger count exists (R4, R52, R74). -/
abbrev Count := BitVec 6

end Sys2Proof
end

