-- ==== Sys2Proof/Config.lean ====
section
/-! DEFINITION. The three policies that the spec leaves OPEN, as arguments of the model (R4). No value of this machine is
free: every other open point of the spec is settled by a rule of it. -/

namespace Sys2Proof

/-- `ODD_PAIR_POLICY`: what an odd rd or rs1 does (R16, decision D5). -/
inductive OddPairPolicy where
  /-- The step is refused, `OddPairRegister`: the spec's default. -/
  | refuse
  /-- The lowest bit of the field is ignored: the pair is `pair(n - 1)`. -/
  | maskLowBit
  /-- The step is the fault outcome, standing for SPARC V8's illegal_instruction trap. -/
  | trapIllegalInstruction
  deriving DecidableEq, Repr

/-- `REG_COUNT_HIGH_POLICY`: what a non-zero `x[rs2][31:6]` does (R80, decision D6). -/
inductive RegCountHighPolicy where
  /-- The upper bits are ignored: the spec's default. -/
  | ignore
  /-- The step is refused, `CountRegisterHighBits`. -/
  | refuse
  deriving DecidableEq, Repr

/-- `UNUSED_BITS_POLICY`: whether `insn[12:7]` must be zero to decode (R54, decision D10). -/
inductive UnusedBitsPolicy where
  /-- A word with one of these bits set is a reserved encoding: the spec's default. -/
  | strict
  /-- The bits are left out of the decoding. -/
  | ignore
  deriving DecidableEq, Repr

/-- The OPEN policies of one machine (R4). -/
structure Policies where
  /-- `ODD_PAIR_POLICY` (R16). -/
  oddPair : OddPairPolicy
  /-- `REG_COUNT_HIGH_POLICY` (R80). -/
  regCountHigh : RegCountHighPolicy
  /-- `UNUSED_BITS_POLICY` (R54). -/
  unusedBits : UnusedBitsPolicy
  deriving DecidableEq, Repr

end Sys2Proof
end

