-- ==== Sys2Proof/Machine/Defaults.lean ====
section
/-! DEFINITION. The values that the machine right after reset takes for the parameters the spec leaves OPEN (R4). -/

namespace Sys2Proof.Machine

/-- The default of each OPEN policy, as R4 recommends it. DESIGN CHOICE that reset takes the defaults (log 2). -/
def defaultPolicies : Policies :=
  { oddPair := .refuse, regCountHigh := .ignore, unusedBits := .strict }

/-- `START_PC` of the state at reset. PRESUMED: the spec gives none; 0 is where the family, SPARC V8, starts (log 4). -/
def defaultStartPc : Word := 0x00000000#32

/-- What x[1] to x[31] hold at reset. DESIGN CHOICE: the spec gives no value (log 3). -/
def defaultRegister : Word := 0x00000000#32

end Sys2Proof.Machine
end

