-- ==== Sys2Proof/Syntax.lean ====
section
/-! DEFINITION. The instructions: one constructor per row of the opcode table (R2, R46 to R48). -/

namespace Sys2Proof

/-- The six instruction forms (R2). `rd` and `rs1` name the destination and the source pair, `count` is the direct count
`insn[5:0]` (R47, R52), `rs2` the single register that holds the count (R48, R53). -/
inductive Instr where
  /-- `SLLD_imm`, R75. -/
  | slldImm (rd rs1 : RegNum) (count : Count)
  /-- `SRLD_imm`, R76. -/
  | srldImm (rd rs1 : RegNum) (count : Count)
  /-- `SRAD_imm`, R77. -/
  | sradImm (rd rs1 : RegNum) (count : Count)
  /-- `SLLD_reg`, R81. -/
  | slldReg (rd rs1 rs2 : RegNum)
  /-- `SRLD_reg`, R82. -/
  | srldReg (rd rs1 rs2 : RegNum)
  /-- `SRAD_reg`, R83. -/
  | sradReg (rd rs1 rs2 : RegNum)
  deriving DecidableEq, Repr

/-- The field rd of an instruction (R46). -/
def Instr.rd : Instr → RegNum
  | .slldImm rd _ _ => rd
  | .srldImm rd _ _ => rd
  | .sradImm rd _ _ => rd
  | .slldReg rd _ _ => rd
  | .srldReg rd _ _ => rd
  | .sradReg rd _ _ => rd

/-- The field rs1 of an instruction (R46). -/
def Instr.rs1 : Instr → RegNum
  | .slldImm _ rs1 _ => rs1
  | .srldImm _ rs1 _ => rs1
  | .sradImm _ rs1 _ => rs1
  | .slldReg _ rs1 _ => rs1
  | .srldReg _ rs1 _ => rs1
  | .sradReg _ rs1 _ => rs1

/-- The register that holds the count, in a register indirect form (R48); the direct forms have none (R22). -/
def Instr.countReg? : Instr → Option RegNum
  | .slldImm _ _ _ => none
  | .srldImm _ _ _ => none
  | .sradImm _ _ _ => none
  | .slldReg _ _ rs2 => some rs2
  | .srldReg _ _ rs2 => some rs2
  | .sradReg _ _ rs2 => some rs2

end Sys2Proof
end

