-- ==== Sys2Proof/WellFormed.lean ====
section
/-! DEFINITION. When an instruction is well-formed: both pair designators are even (R75 to R77 and R81 to R83, "Operands";
R111 (3)). The widths of the fields are in their types. -/

namespace Sys2Proof

/-- A register number that can be the first register of a pair (R14, R15). -/
def evenReg (n : RegNum) : Bool := n.toNat % 2 == 0

/-- rd and rs1 are even; rs2 and the count may be anything (R16, R75, R81). -/
def Instr.wellFormed (i : Instr) : Bool := evenReg i.rd && evenReg i.rs1

end Sys2Proof
end

