-- ==== Sys2Proof/Decode.lean ====
section
/-! DEFINITION. From an instruction word to an instruction and back (R45 to R57), and the opcode table's match and mask
words (R51). Decoding is total: every word is one of the six forms or is rejected by name. -/

namespace Sys2Proof

/-! ### The fields of a word (R46) -/

/-- `insn[31:30]`. -/
def fieldOp (w : Word) : BitVec 2 := w.extractLsb' 30 2
/-- `insn[29:25]`, rd. -/
def fieldRd (w : Word) : RegNum := w.extractLsb' 25 5
/-- `insn[24:19]`, op3. -/
def fieldOp3 (w : Word) : BitVec 6 := w.extractLsb' 19 6
/-- `insn[18:14]`, rs1. -/
def fieldRs1 (w : Word) : RegNum := w.extractLsb' 14 5
/-- `insn[13]`, the i bit. -/
def fieldI (w : Word) : BitVec 1 := w.extractLsb' 13 1
/-- `insn[12:7]`, the unused bits. -/
def fieldUnused (w : Word) : BitVec 6 := w.extractLsb' 7 6
/-- `insn[6]`, the bit that tells an AJIT shift from a SPARC V8 shift. -/
def fieldAjit (w : Word) : BitVec 1 := w.extractLsb' 6 1
/-- `insn[5:0]`, the direct count. -/
def fieldCount (w : Word) : Count := w.extractLsb' 0 6
/-- `insn[5]`. -/
def fieldBit5 (w : Word) : BitVec 1 := w.extractLsb' 5 1
/-- `insn[4:0]`, rs2. -/
def fieldRs2 (w : Word) : RegNum := w.extractLsb' 0 5

/-! ### Operations and forms -/

/-- The three operations of the extension (R2). -/
inductive ShiftOp where
  /-- SLLD, shift left logical. -/
  | slld
  /-- SRLD, shift right logical. -/
  | srld
  /-- SRAD, shift right arithmetic. -/
  | srad
  deriving DecidableEq, Repr

/-- The op3 of an operation, the same in both versions (R49; conflict C2). -/
def op3Of : ShiftOp → BitVec 6
  | .slld => 0b100101#6
  | .srld => 0b100110#6
  | .srad => 0b100111#6

/-- The operation an op3 selects, if it is one of the extension's (R49, R55 step 1). -/
def shiftOp? (op3 : BitVec 6) : Option ShiftOp :=
  if op3 = 0b100101#6 then some .slld
  else if op3 = 0b100110#6 then some .srld
  else if op3 = 0b100111#6 then some .srad
  else none

/-- The direct count form of an operation (R47, R55 step 4). -/
def directForm (op : ShiftOp) (rd rs1 : RegNum) (count : Count) : Instr :=
  match op with
  | .slld => .slldImm rd rs1 count
  | .srld => .srldImm rd rs1 count
  | .srad => .sradImm rd rs1 count

/-- The register indirect count form of an operation (R48, R55 step 5). -/
def registerForm (op : ShiftOp) (rd rs1 rs2 : RegNum) : Instr :=
  match op with
  | .slld => .slldReg rd rs1 rs2
  | .srld => .srldReg rd rs1 rs2
  | .srad => .sradReg rd rs1 rs2

/-! ### Decode (R55) -/

/-- Why a word, or a string of bytes, is not one of the six forms. -/
inductive DecodeReject where
  /-- Not described by any source of the spec (R55 steps 1 and 2, R56, R57). -/
  | notInExtension
  /-- The extension's op, op3 and bit 6, with a bit set that the spec says is zero (R55 steps 3 and 6, R56). -/
  | reservedEncoding
  /-- Fewer than the four bytes of an instruction word (R45; DESIGN CHOICE, log 12). No fetch gives this. -/
  | truncated
  deriving DecidableEq, Repr

/-- The decode procedure, its steps in the order of R55. -/
def decode (p : UnusedBitsPolicy) (w : Word) : Except DecodeReject Instr :=
  if fieldOp w ≠ 0b10#2 then .error .notInExtension
  else
    match shiftOp? (fieldOp3 w) with
    | none => .error .notInExtension
    | some op =>
      if fieldAjit w = 0#1 then .error .notInExtension
      else if fieldUnused w ≠ 0#6 ∧ p = .strict then .error .reservedEncoding
      else if fieldI w = 1#1 then .ok (directForm op (fieldRd w) (fieldRs1 w) (fieldCount w))
      else if fieldBit5 w = 0#1 then .ok (registerForm op (fieldRd w) (fieldRs1 w) (fieldRs2 w))
      else .error .reservedEncoding

/-- A field put into a word with its lowest bit at bit `lo` (R5). -/
def placeField {n : Nat} (v : BitVec n) (lo : Nat) : Word := v.setWidth 32 <<< lo

/-! ### Byte order (R35) -/

/-- The word whose byte at the lowest address is `b0`: big-endian, `b0` is `insn[31:24]` (R35). -/
def wordOfBytes (b0 b1 b2 b3 : Byte) : Word :=
  placeField b0 24 ||| placeField b1 16 ||| placeField b2 8 ||| placeField b3 0

/-- Byte `k` of a word, counted from the lowest address: `insn[31:24]` for 0, `insn[7:0]` for 3 (R35). -/
def byteOfWord (w : Word) (k : Nat) : Byte := w.extractLsb' (24 - 8 * k) 8

/-- The four bytes of a word from the lowest address up (R35). -/
def bytesOfWord (w : Word) : List Byte :=
  [byteOfWord w 0, byteOfWord w 1, byteOfWord w 2, byteOfWord w 3]

/-- Decode the instruction at the head of a string of bytes, with the bytes after it (R35, R45, R55). -/
def decodeBytes (p : UnusedBitsPolicy) : List Byte → Except DecodeReject (Instr × List Byte)
  | b0 :: b1 :: b2 :: b3 :: rest =>
    match decode p (wordOfBytes b0 b1 b2 b3) with
    | .ok i => .ok (i, rest)
    | .error e => .error e
  | _ => .error .truncated

/-- The instruction the decoder reads from a word `w` of `nbits` bits, under the default `UNUSED_BITS_POLICY`; the bits
above `nbits` are zero. The word is laid out as the hardware stores it (R35). -/
def decodeTableWord (nbits w : Nat) : Option Instr :=
  match decodeBytes Machine.defaultPolicies.unusedBits (bytesOfWord (BitVec.ofNat 32 (w % 2 ^ nbits))) with
  | .ok (i, _) => some i
  | .error _ => none

/-! ### Encode (R46 to R48) -/

/-- The fields common to all six forms: op = 10, rd, op3, rs1, i, zeros at bits 12:7 and the AJIT bit 6 (R46). -/
def encodeCommon (op : ShiftOp) (rd rs1 : RegNum) (i : BitVec 1) : Word :=
  placeField 0b10#2 30 ||| placeField rd 25 ||| placeField (op3Of op) 19 ||| placeField rs1 14 ||| placeField i 13 |||
    placeField 0b000000#6 7 ||| placeField 1#1 6

/-- The word of a direct count form: i = 1, the count at bits 5:0 (R47). -/
def encodeDirect (op : ShiftOp) (rd rs1 : RegNum) (count : Count) : Word :=
  encodeCommon op rd rs1 1#1 ||| placeField count 0

/-- The word of a register indirect count form: i = 0, zero at bit 5, rs2 at bits 4:0 (R48). -/
def encodeRegister (op : ShiftOp) (rd rs1 rs2 : RegNum) : Word :=
  encodeCommon op rd rs1 0#1 ||| placeField 0#1 5 ||| placeField rs2 0

/-- The instruction word of an instruction (R46 to R49). -/
def encode : Instr → Word
  | .slldImm rd rs1 count => encodeDirect .slld rd rs1 count
  | .srldImm rd rs1 count => encodeDirect .srld rd rs1 count
  | .sradImm rd rs1 count => encodeDirect .srad rd rs1 count
  | .slldReg rd rs1 rs2 => encodeRegister .slld rd rs1 rs2
  | .srldReg rd rs1 rs2 => encodeRegister .srld rd rs1 rs2
  | .sradReg rd rs1 rs2 => encodeRegister .srad rd rs1 rs2

/-- The bytes of an instruction from the lowest address up (R35). -/
def encodeBytes (i : Instr) : List Byte := bytesOfWord (encode i)

/-! ### The opcode table (R51, R54) -/

/-- The labels of the six forms (R2). -/
inductive Form where
  | slldImm | srldImm | sradImm | slldReg | srldReg | sradReg
  deriving DecidableEq, Repr

/-- The form of an instruction. -/
def Instr.form : Instr → Form
  | .slldImm _ _ _ => .slldImm
  | .srldImm _ _ _ => .srldImm
  | .sradImm _ _ _ => .sradImm
  | .slldReg _ _ _ => .slldReg
  | .srldReg _ _ _ => .srldReg
  | .sradReg _ _ _ => .sradReg

/-- The six forms, in the table's order. -/
def allForms : List Form := [.slldImm, .srldImm, .sradImm, .slldReg, .srldReg, .sradReg]

/-- The match word of a form, as the table under R51 prints it. -/
def matchOf : Form → Word
  | .slldImm => 0x81282040#32
  | .srldImm => 0x81302040#32
  | .sradImm => 0x81382040#32
  | .slldReg => 0x81280040#32
  | .srldReg => 0x81300040#32
  | .sradReg => 0x81380040#32

/-- A form is a direct count form (i = 1). -/
def Form.isDirect : Form → Bool
  | .slldImm | .srldImm | .sradImm => true
  | .slldReg | .srldReg | .sradReg => false

/-- The mask of a form: R51 under `strict`, R54 under `ignore`. -/
def maskOf (p : UnusedBitsPolicy) (f : Form) : Word :=
  match p, f.isDirect with
  | .strict, true => 0xC1F83FC0#32
  | .strict, false => 0xC1F83FE0#32
  | .ignore, true => 0xC1F82040#32
  | .ignore, false => 0xC1F82060#32

/-- A word matches a form's row of the opcode table: `w & mask = match` (R51). -/
def matchesRow (p : UnusedBitsPolicy) (f : Form) (w : Word) : Bool :=
  w &&& maskOf p f == matchOf f

end Sys2Proof
end

