-- ==== Sys2Proof/Machine/State.lean ====
section
/-! DEFINITION. The state of the machine (R10, R23, R31), the reasons a step can stop (R93), and the state right after
reset. -/

namespace Sys2Proof.Machine

/-- The address space as (address, byte) cells, addresses strictly rising; an address with no cell holds nothing (R30,
R31). -/
abbrev Memory := List Host.Cell

/-- The state of the machine. `regs`, `pc` and `npc` are all the state R10 gives it. The other fields are the parameters of
a run (R4, R31); they stand here because a step is a function of the state alone, and no step changes one (DESIGN CHOICE,
log 1). -/
structure State where
  /-- x[0] to x[31] (R10, R11). The cell of x[0] is read by nothing: x[0] is hard-wired in `State.readReg` (R12; DESIGN
  CHOICE, log 9). -/
  regs : Vector Word 32
  /-- The address of the instruction (R17). -/
  pc : Word
  /-- The address of the instruction to run after it (R17). -/
  npc : Word
  /-- `START_PC`, the address of the program's first word (R4, R31). -/
  startPc : Word
  /-- `PROGRAM_LEN`, the number of the program's words (R4, R31). -/
  programLen : Nat
  /-- `PROGRAM` as it stands in the address space, byte by byte (R31, R35; DESIGN CHOICE, log 7). -/
  mem : Memory
  /-- The OPEN policies of the machine (R4). -/
  policies : Policies
  deriving DecidableEq, Repr

/-- The fault outcome of a step (R93). -/
inductive Fault where
  /-- An odd rd or rs1 under `trap_illegal_instruction`; stands for a trap whose handler is outside the model (R16, R93).
  Raised by every instruction form through `choosePairs`. Safe: the machine stops where the hardware goes on. -/
  | illegalInstruction
  deriving DecidableEq, Repr

/-- Why a step has no meaning in the model (R93). A refusal leaves the state unchanged and claims nothing of the chip. -/
inductive Refusal where
  /-- An instruction whose meaning is not written. No arm of this model raises it. Safe. -/
  | notModelled (mnemonic : String)
  /-- Raised by fetch: a program counter is not a multiple of 4 (R36, R17; DEDUCED, log 14). Safe. -/
  | misalignedFetch
  /-- Raised by fetch: no word of the program stands at pc (R34). Safe. -/
  | fetchOutsideProgram
  /-- Raised by fetch: the run has ended, pc is the address after the program's last word (R112; DESIGN CHOICE, log 5). It
  is the final state of the run and not one of R93's reasons. Safe. -/
  | endOfRun
  /-- Raised by decode: the word is outside the extension (R55 steps 1 and 2, R56). Safe. -/
  | notInExtension
  /-- Raised by decode: a reserved word of the extension (R55 steps 3 and 6, R56). Safe. -/
  | reservedEncoding
  /-- Raised by every instruction form: odd rd or rs1 under `ODD_PAIR_POLICY = refuse` (R16). Safe. -/
  | oddPairRegister
  /-- Raised by the register indirect forms: `x[rs2][31:6]` is not zero under `REG_COUNT_HIGH_POLICY = refuse` (R80).
  Safe. -/
  | countRegisterHighBits
  deriving DecidableEq, Repr

/-- The machine right after reset: the start state of a run (R23, R110) with no program placed (DESIGN CHOICE, log 8), the
counters at `START_PC` and `START_PC + 4` (`START_PC`: PRESUMED, log 4), x[0] zero, every other register at the value that
log 3 names (DESIGN CHOICE), the policies at their defaults (DESIGN CHOICE, log 2). -/
def State.reset : State :=
  { regs := (Vector.replicate 32 defaultRegister).set 0 0#32
    pc := defaultStartPc
    npc := defaultStartPc + 4#32
    startPc := defaultStartPc
    programLen := 0
    mem := []
    policies := defaultPolicies }

end Sys2Proof.Machine
end

