-- ==== Sys2Proof/Machine/Ops.lean ====
section
/-! DEFINITION. The named operations on registers, register pairs, program counters and memory (R5, R12, R14, R15, R17,
R31, R34, R35). No instruction takes a trap and there is no return from one (R90, R94, R95), so there is no operation for
either. -/

namespace Sys2Proof.Machine

/-- Go on with the answer of the first part of a step; a fault or a refusal of it is the answer of the whole (R70, R97). -/
def andThen {α β : Type} (r : Host.Outcome α Fault Refusal) (k : α → Host.Outcome β Fault Refusal) :
    Host.Outcome β Fault Refusal :=
  match r with
  | .next a => k a
  | .fault f => .fault f
  | .refused e => .refused e

/-! ### General registers -/

/-- `x[n]`: register 0 reads as zero (R5, R12). -/
def State.readReg (s : State) (n : RegNum) : Word :=
  if n = 0#5 then 0#32 else s.regs[n.toNat]

/-- `x[n] <- v`: a write to register 0 is discarded (R5, R12). -/
def State.writeReg (s : State) (n : RegNum) (v : Word) : State :=
  if n = 0#5 then s else { s with regs := s.regs.set n.toNat v }

/-- `hi ++ lo`, the 64-bit value of two registers (R5, R14). -/
def pairOfWords (hi lo : Word) : DWord := hi ++ lo

/-- `v[63:32]`, what the even register of a pair holds (R14, R15). -/
def highWord (v : DWord) : Word := v.extractLsb' 32 32

/-- `v[31:0]`, what the odd register of a pair holds (R14, R15). -/
def lowWord (v : DWord) : Word := v.extractLsb' 0 32

/-- `pair(n)` for even n: the even register holds bits 63:32, the odd one bits 31:0 (R14). -/
def State.readPair (s : State) (n : RegNum) : DWord :=
  pairOfWords (s.readReg n) (s.readReg (n + 1#5))

/-- `pair(n) <- v` for even n: both halves are written by the one instruction (R15). -/
def State.writePair (s : State) (n : RegNum) (v : DWord) : State :=
  (s.writeReg n (highWord v)).writeReg (n + 1#5) (lowWord v)

/-! ### Program counters -/

/-- `pc <- npc; npc <- npc + 4`, modulo 2^32 (R17). -/
def State.advance (s : State) : State :=
  { s with pc := s.npc, npc := s.npc + 4#32 }

/-- An instruction address is a multiple of 4 (R36). -/
def alignedAddr (a : Word) : Bool := a.toNat % 4 == 0

/-! ### Memory -/

/-- The canonical form of a memory: addresses strictly rising, each below 2^32. An unlisted address holds nothing (R31), so
no cell can repeat what an unlisted address reads as. -/
abbrev Memory.wf (m : Memory) : Prop :=
  m.Pairwise (fun c d => c.1 < d.1) ∧ ∀ c ∈ m, c.1 < 2 ^ 32

/-- The byte at an address; none where the address space holds nothing (R31). -/
def Memory.readByte : Memory → Nat → Option Byte
  | [], _ => none
  | (a, b) :: rest, k => if a = k then some b else Memory.readByte rest k

/-- Put a byte at an address, keeping the canonical form. -/
def Memory.writeByte : Memory → Nat → Byte → Memory
  | [], k, v => [(k, v)]
  | (a, b) :: rest, k, v =>
    if k < a then (k, v) :: (a, b) :: rest
    else if k = a then (k, v) :: rest
    else (a, b) :: Memory.writeByte rest k v

/-- `MemRead(a, 4)`: the word at `a`, big-endian; none where one of its bytes does not exist (R5, R34, R35). -/
def Memory.readWord (m : Memory) (a : Word) : Option Word :=
  match m.readByte a.toNat, m.readByte (a + 1#32).toNat, m.readByte (a + 2#32).toNat, m.readByte (a + 3#32).toNat with
  | some b0, some b1, some b2, some b3 => some (wordOfBytes b0 b1 b2 b3)
  | _, _, _, _ => none

/-- `MemWrite(a, 4, w)`, big-endian (R5, R35). Only placing a program uses it: no instruction stores (R32, R33). -/
def Memory.writeWord (m : Memory) (a : Word) (w : Word) : Memory :=
  (((m.writeByte a.toNat (byteOfWord w 0)).writeByte (a + 1#32).toNat (byteOfWord w 1)).writeByte
    (a + 2#32).toNat (byteOfWord w 2)).writeByte (a + 3#32).toNat (byteOfWord w 3)

/-- Put the words of a list at `a`, `a + 4`, ..., modulo 2^32 (R31). -/
def Memory.writeWords (m : Memory) (a : Word) : List Word → Memory
  | [] => m
  | w :: ws => Memory.writeWords (m.writeWord a w) (a + 4#32) ws

/-! ### Placing a program and starting a run, which are done from outside the machine (R31, R110) -/

/-- `PROGRAM := ws` at `START_PC := start` (R31). -/
def State.withProgram (s : State) (start : Word) (ws : List Word) : State :=
  { s with startPc := start, programLen := ws.length, mem := Memory.writeWords [] start ws }

/-- The start state of a run: the counters at `START_PC` and `START_PC + 4`, x[0] zero, the other registers as given, the
program placed (R23, R110). -/
def State.start (regs : Vector Word 32) (start : Word) (ws : List Word) (policies : Policies) : State :=
  { regs := regs.set 0 0#32
    pc := start
    npc := start + 4#32
    startPc := start
    programLen := ws.length
    mem := Memory.writeWords [] start ws
    policies := policies }

end Sys2Proof.Machine
end

