-- ==== Sys2Proof/Machine/Shift64.lean ====
section
/-! DEFINITION. The three 64-bit shift functions (R5, R71 to R73), as arithmetic on exact integers narrowed to 64 bits at
the end. They are defined for counts 0 to 63, which is what a `Count` can be (R74). No flag is computed (R18). -/

namespace Sys2Proof.Machine

/-- `shl64(v, c) = (v * 2^c) mod 2^64` (R71). -/
def shl64 (v : DWord) (c : Count) : DWord := BitVec.ofNat 64 (v.toNat * 2 ^ c.toNat)

/-- `lshr64(v, c) = floor(v / 2^c)`, v unsigned (R72). -/
def lshr64 (v : DWord) (c : Count) : DWord := BitVec.ofNat 64 (v.toNat / 2 ^ c.toNat)

/-- `ashr64(v, c) = floor(s / 2^c) mod 2^64`, s being v in two's complement (R73). The divisor is positive, so the quotient
of integers is the floor. -/
def ashr64 (v : DWord) (c : Count) : DWord := BitVec.ofInt 64 (v.toInt / 2 ^ c.toNat)

end Sys2Proof.Machine
end

