-- ==== Sys2Proof/Machine/Operands.lean ====
section
/-! DEFINITION. The operand forms of the six instructions (R16, R52, R53, R80) and the part of a step they share (R70
parts 3 to 7). -/

namespace Sys2Proof.Machine

/-- Where the count of a shift comes from (R52, R53). -/
inductive CountOperand where
  /-- The six bits `insn[5:0]` (R52, R74). -/
  | direct (count : Count)
  /-- The single register `x[rs2]` (R53, R80). -/
  | register (rs2 : RegNum)
  deriving DecidableEq, Repr

/-- The first register of the pair that a designator names when its lowest bit is ignored: `n - 1` for odd n (R16). -/
def maskLowBit (n : RegNum) : RegNum := if evenReg n then n else n - 1#5

/-- Check the pair designators rd and rs1, tested together, and give the first registers of the two pairs (R16, R70 part 3,
R97). -/
def choosePairs (p : OddPairPolicy) (rd rs1 : RegNum) : Host.Outcome (RegNum × RegNum) Fault Refusal :=
  if evenReg rd && evenReg rs1 then .next (rd, rs1)
  else
    match p with
    | .refuse => .refused .oddPairRegister
    | .maskLowBit => .next (maskLowBit rd, maskLowBit rs1)
    | .trapIllegalInstruction => .fault .illegalInstruction

/-- The count that a 32-bit register holds: its bits 5:0, its other bits under `REG_COUNT_HIGH_POLICY` (R80). -/
def countOfWord (p : RegCountHighPolicy) (v : Word) : Host.Outcome Count Fault Refusal :=
  if p = .refuse ∧ v.extractLsb' 6 26 ≠ 0#26 then .refused .countRegisterHighBits
  else .next (v.extractLsb' 0 6)

/-- Read the count operand (R70 part 4, R74, R80). -/
def readCount (c : CountOperand) (s : State) : Host.Outcome Count Fault Refusal :=
  match c with
  | .direct count => .next count
  | .register rs2 => countOfWord s.policies.regCountHigh (s.readReg rs2)

/-- Parts 3 to 7 of a step: check the designators, read both operands, shift, write the pair, advance the counters. All
reads come before any write (R24, R70). -/
def shiftPair (f : DWord → Count → DWord) (rd rs1 : RegNum) (c : CountOperand) (s : State) :
    Host.Outcome State Fault Refusal :=
  andThen (choosePairs s.policies.oddPair rd rs1) fun pairs =>
    andThen (readCount c s) fun count =>
      .next (s.writePair pairs.1 (f (s.readPair pairs.2) count)).advance

end Sys2Proof.Machine
end

