-- ==== Sys2Proof/Machine/ShiftDirect.lean ====
section
/-! DEFINITION. The meanings of the three direct count shifts (R75 to R77). -/

namespace Sys2Proof.Machine

/-- SLLD, direct count: `pair(rd) <- shl64(pair(rs1), count)` (R75). -/
def execSlldImm (rd rs1 : RegNum) (count : Count) (s : State) : Host.Outcome State Fault Refusal :=
  shiftPair shl64 rd rs1 (.direct count) s

/-- SRLD, direct count: `pair(rd) <- lshr64(pair(rs1), count)` (R76). -/
def execSrldImm (rd rs1 : RegNum) (count : Count) (s : State) : Host.Outcome State Fault Refusal :=
  shiftPair lshr64 rd rs1 (.direct count) s

/-- SRAD, direct count: `pair(rd) <- ashr64(pair(rs1), count)` (R77). -/
def execSradImm (rd rs1 : RegNum) (count : Count) (s : State) : Host.Outcome State Fault Refusal :=
  shiftPair ashr64 rd rs1 (.direct count) s

end Sys2Proof.Machine
end

