-- ==== Sys2Proof/Machine/ShiftRegister.lean ====
section
/-! DEFINITION. The meanings of the three register indirect count shifts (R81 to R83). -/

namespace Sys2Proof.Machine

/-- SLLD, register indirect count: `pair(rd) <- shl64(pair(rs1), x[rs2][5:0])` (R81). -/
def execSlldReg (rd rs1 rs2 : RegNum) (s : State) : Host.Outcome State Fault Refusal :=
  shiftPair shl64 rd rs1 (.register rs2) s

/-- SRLD, register indirect count: `pair(rd) <- lshr64(pair(rs1), x[rs2][5:0])` (R82). -/
def execSrldReg (rd rs1 rs2 : RegNum) (s : State) : Host.Outcome State Fault Refusal :=
  shiftPair lshr64 rd rs1 (.register rs2) s

/-- SRAD, register indirect count: `pair(rd) <- ashr64(pair(rs1), x[rs2][5:0])` (R83). -/
def execSradReg (rd rs1 rs2 : RegNum) (s : State) : Host.Outcome State Fault Refusal :=
  shiftPair ashr64 rd rs1 (.register rs2) s

end Sys2Proof.Machine
end

