-- ==== Sys2Proof/Machine/Dispatch.lean ====
section
/-! DEFINITION. exec: one arm per instruction form, each a call of its meaning. -/

namespace Sys2Proof.Machine

/-- What an instruction does to the state (R70 parts 3 to 7). -/
def exec (i : Instr) (s : State) : Host.Outcome State Fault Refusal :=
  match i with
  | .slldImm rd rs1 count => Sys2Proof.Machine.execSlldImm rd rs1 count s
  | .srldImm rd rs1 count => Sys2Proof.Machine.execSrldImm rd rs1 count s
  | .sradImm rd rs1 count => Sys2Proof.Machine.execSradImm rd rs1 count s
  | .slldReg rd rs1 rs2 => Sys2Proof.Machine.execSlldReg rd rs1 rs2 s
  | .srldReg rd rs1 rs2 => Sys2Proof.Machine.execSrldReg rd rs1 rs2 s
  | .sradReg rd rs1 rs2 => Sys2Proof.Machine.execSradReg rd rs1 rs2 s

end Sys2Proof.Machine
end

