-- ==== Sys2Proof/Machine/Fetch.lean ====
section
/-! DEFINITION. Parts 1 and 2 of a step: fetching the word at pc (R34 to R36, R112) and decoding it (R55, R56). -/

namespace Sys2Proof.Machine

/-- An address is `START_PC + 4*k` modulo 2^32 for some `0 <= k < PROGRAM_LEN` (R31, R34). -/
def State.inProgram (s : State) (a : Word) : Bool :=
  (a - s.startPc).toNat % 4 == 0 && decide ((a - s.startPc).toNat / 4 < s.programLen)

/-- `START_PC + 4*PROGRAM_LEN` modulo 2^32: where a run ends (R112). -/
def State.endPc (s : State) : Word := s.startPc + BitVec.ofNat 32 (4 * s.programLen)

/-- Fetch the instruction word at pc: both counters aligned (R17, R36; DEDUCED, log 14), then pc inside the program (R34).
The end of the run (R112) is tested where pc is no program address (DESIGN CHOICE, log 6). -/
def fetch (s : State) : Host.Outcome Word Fault Refusal :=
  if alignedAddr s.pc && alignedAddr s.npc then
    if s.inProgram s.pc then
      match s.mem.readWord s.pc with
      | some w => .next w
      | none => .refused .fetchOutsideProgram
    else if s.pc = s.endPc then .refused .endOfRun
    else .refused .fetchOutsideProgram
  else .refused .misalignedFetch

/-- The refusal that a rejected word is (R56). A whole word is never `truncated`. -/
def refusalOf : DecodeReject → Refusal
  | .notInExtension => .notInExtension
  | .reservedEncoding => .reservedEncoding
  | .truncated => .fetchOutsideProgram

/-- Decode a fetched word under the machine's `UNUSED_BITS_POLICY` (R55). -/
def decodeFetched (s : State) (w : Word) : Host.Outcome Instr Fault Refusal :=
  match decode s.policies.unusedBits w with
  | .ok i => .next i
  | .error e => .refused (refusalOf e)

/-- The largest multiple of 4 that is not above an address. -/
def alignDown (a : Word) : Word := a &&& 0xFFFFFFFC#32

/-- Place one word where the next step fetches it: inside the program, the word at pc is replaced; outside it, the word
becomes a program of one word at pc (R31; DESIGN CHOICE, log 8). Counters that no fetch admits are first rounded down to
multiples of 4. -/
def State.placeWord (s : State) (w : Word) : State :=
  let t : State := { s with pc := alignDown s.pc, npc := alignDown s.npc }
  if t.inProgram t.pc then { t with mem := t.mem.writeWord t.pc w } else t.withProgram t.pc [w]

end Sys2Proof.Machine
end

