-- ==== Sys2Proof/Machine/Step.lean ====
section
/-! DEFINITION. One step of the machine (R70), and the state in which a given word is the next one fetched. -/

namespace Sys2Proof.Machine

/-- One step: fetch, decode, execute, in this order; the first part that stops decides (R70, R97). -/
def step (s : State) : Host.Outcome State Fault Refusal :=
  andThen (fetch s) fun w => andThen (decodeFetched s w) fun i => exec i s

/-- `s` with the instruction word `w` of `nbits` bits stored where the next step fetches (DESIGN CHOICE, log 8). -/
def State.withFetchWord (s : State) (nbits w : Nat) : State :=
  s.placeWord (BitVec.ofNat 32 (w % 2 ^ nbits))

end Sys2Proof.Machine
end

