-- ==== Sys2Proof/Machine/Assembler.lean ====
section
/-! DEFINITION. The assembler's view of the six instructions: syntax (R58, R59) and encoding macros (R60 to R62). It is a
matter of tools; no step of the machine uses it. -/

namespace Sys2Proof.Machine

/-- An operand of an assembly line: a register is r and a number, anything else a number (R58). -/
inductive AsmOperand where
  /-- `r<n>`. -/
  | reg (n : Nat)
  /-- `<n>`, decimal. -/
  | num (n : Nat)
  deriving DecidableEq, Repr

/-- A line `mnemonic first, second, third`: source, count, destination (R58). -/
structure AsmLine where
  /-- The mnemonic as written. -/
  mnemonic : String
  /-- `SrcReg1`. -/
  first : AsmOperand
  /-- `6BitShiftCnt` or `SrcReg2`. -/
  second : AsmOperand
  /-- `DestReg`. -/
  third : AsmOperand
  deriving DecidableEq, Repr

/-- The mnemonic of an operation, the same in both versions (R58; conflict C3). -/
def mnemonicOf : ShiftOp → String
  | .slld => "slld"
  | .srld => "srld"
  | .srad => "srad"

/-- The operation that a mnemonic names (R58; decision D24: nothing else is an instruction). -/
def opOfMnemonic (m : String) : Option ShiftOp :=
  if m = "slld" then some .slld
  else if m = "srld" then some .srld
  else if m = "srad" then some .srad
  else none

/-- The instruction an assembly line denotes: registers r0 to r31, a direct count 0 to 63, the second operand choosing the
version; anything else is not an instruction (R58, R59). -/
def assemble (l : AsmLine) : Option Instr :=
  match opOfMnemonic l.mnemonic, l.first, l.second, l.third with
  | some op, .reg a, .num c, .reg d =>
    if a < 32 ∧ c < 64 ∧ d < 32 then
      some (directForm op (BitVec.ofNat 5 d) (BitVec.ofNat 5 a) (BitVec.ofNat 6 c))
    else none
  | some op, .reg a, .reg b, .reg d =>
    if a < 32 ∧ b < 32 ∧ d < 32 then
      some (registerForm op (BitVec.ofNat 5 d) (BitVec.ofNat 5 a) (BitVec.ofNat 5 b))
    else none
  | _, _, _, _ => none

/-- The assembly line of a direct count form (R58). -/
def directLine (op : ShiftOp) (rd rs1 : RegNum) (count : Count) : AsmLine :=
  { mnemonic := mnemonicOf op, first := .reg rs1.toNat, second := .num count.toNat, third := .reg rd.toNat }

/-- The assembly line of a register indirect count form (R58). -/
def registerLine (op : ShiftOp) (rd rs1 rs2 : RegNum) : AsmLine :=
  { mnemonic := mnemonicOf op, first := .reg rs1.toNat, second := .reg rs2.toNat, third := .reg rd.toNat }

/-- The assembly line of an instruction (R58). -/
def disassemble : Instr → AsmLine
  | .slldImm rd rs1 count => directLine .slld rd rs1 count
  | .srldImm rd rs1 count => directLine .srld rd rs1 count
  | .sradImm rd rs1 count => directLine .srad rd rs1 count
  | .slldReg rd rs1 rs2 => registerLine .slld rd rs1 rs2
  | .srldReg rd rs1 rs2 => registerLine .srld rd rs1 rs2
  | .sradReg rd rs1 rs2 => registerLine .srad rd rs1 rs2

/-- The text of an operand (R58). -/
def AsmOperand.text : AsmOperand → String
  | .reg n => "r" ++ toString n
  | .num n => toString n

/-- The text of a line, as R58's examples print it. -/
def AsmLine.text (l : AsmLine) : String :=
  l.mnemonic ++ " " ++ l.first.text ++ ", " ++ l.second.text ++ ", " ++ l.third.text

/-! ### The encoding macros -/

/-- `OP(x)` = `((x) & 0x3) << 30` (R61). -/
def macroOP (x : Word) : Word := (x &&& 0x3#32) <<< 30

/-- `OP3(y)` = `((y) & 0x3f) << 19` (R61). -/
def macroOP3 (y : Word) : Word := (y &&& 0x3f#32) <<< 19

/-- `F3I(z)` = `((z) & 0x1) << 13` (R61). -/
def macroF3I (z : Word) : Word := (z &&& 0x1#32) <<< 13

/-- `OP_AJIT_BITS_5_AND_6(a)` = `((a) & 0x3) << 5` (R62; conflict C5). -/
def macroAjitBits (a : Word) : Word := (a &&& 0x3#32) <<< 5

/-- `F5(x, y, z)`, which sets the constant a = 0x2 in `insn[6:5]` itself (R60, R62). -/
def macroF5 (x y z : Word) : Word := macroOP x ||| macroOP3 y ||| macroF3I z ||| macroAjitBits 0x2#32

/-- The arguments x, y, z of each form's macro (R61). -/
def macroArgs : Form → Word × Word × Word
  | .slldImm => (0x2#32, 0x25#32, 0x1#32)
  | .srldImm => (0x2#32, 0x26#32, 0x1#32)
  | .sradImm => (0x2#32, 0x27#32, 0x1#32)
  | .slldReg => (0x2#32, 0x25#32, 0x0#32)
  | .srldReg => (0x2#32, 0x26#32, 0x0#32)
  | .sradReg => (0x2#32, 0x27#32, 0x0#32)

end Sys2Proof.Machine
end

