-- ==== Sys2Proof/Safety.lean ====
section
/-! DEFINITION. The terms in which claims speak of a run: an admissible state, what a shift may change, when an instruction
completes. -/

namespace Sys2Proof.Machine

/-- The words of the program stand in the memory and nothing else does: every listed address lies in the program, and every
word of the program can be read (R31). -/
abbrev State.programPlaced (s : State) : Prop :=
  (∀ c ∈ s.mem, (BitVec.ofNat 32 c.1 - s.startPc).toNat / 4 < s.programLen) ∧
  ∀ k < s.programLen, (s.mem.readWord (s.startPc + BitVec.ofNat 32 (4 * k))).isSome = true

/-- What holds at the start of every run and throughout it: x[0] is zero (R12), the counters are aligned and `npc = pc + 4`
(R17, R36, R110), `START_PC` is aligned (R4), the program is shorter than the address space (log 6) and stands in the
memory (R31), and the memory has its canonical form. -/
abbrev State.admissible (s : State) : Prop :=
  s.regs[0] = 0#32 ∧ alignedAddr s.pc = true ∧ s.npc = s.pc + 4#32 ∧ alignedAddr s.startPc = true ∧
  s.programLen < 2 ^ 30 ∧ Memory.wf s.mem ∧ s.programPlaced

/-- Every byte of the address space and every parameter of the run is the same in both states (R31, R41). -/
abbrev State.sameRun (s t : State) : Prop :=
  (∀ a, t.mem.readByte a = s.mem.readByte a) ∧ t.startPc = s.startPc ∧ t.programLen = s.programLen ∧
  t.policies = s.policies

/-- `t` is `s` with the pair `n` holding `v` and the counters advanced, and nothing else changed (R15, R17, R22): x[0] stays
zero when n is 0 (R12). `n` is even. -/
abbrev State.shiftEffect (s t : State) (n : RegNum) (v : DWord) : Prop :=
  (∀ k, t.readReg k =
    if k = 0#5 then 0#32
    else if k = n then highWord v
    else if k = n + 1#5 then lowWord v
    else s.readReg k) ∧
  t.pc = s.npc ∧ t.npc = s.npc + 4#32 ∧ s.sameRun t

/-- The first register of the pair a designator stands for when its lowest bit is ignored (R16). -/
abbrev pairBase (n : RegNum) : RegNum := n &&& 0b11110#5

/-- The instruction with the lowest bit of both pair designators ignored (R16, `mask_low_bit`). -/
def withEvenPairs : Instr → Instr
  | .slldImm rd rs1 count => .slldImm (pairBase rd) (pairBase rs1) count
  | .srldImm rd rs1 count => .srldImm (pairBase rd) (pairBase rs1) count
  | .sradImm rd rs1 count => .sradImm (pairBase rd) (pairBase rs1) count
  | .slldReg rd rs1 rs2 => .slldReg (pairBase rd) (pairBase rs1) rs2
  | .srldReg rd rs1 rs2 => .srldReg (pairBase rd) (pairBase rs1) rs2
  | .sradReg rd rs1 rs2 => .sradReg (pairBase rd) (pairBase rs1) rs2

/-- The shift function of an operation (R71 to R73). -/
def shiftFunction : ShiftOp → DWord → Count → DWord
  | .slld => shl64
  | .srld => lshr64
  | .srad => ashr64

/-- The designators of an instruction are admitted: both even, or the policy ignores the lowest bit (R16). -/
abbrev State.pairsAdmitted (s : State) (i : Instr) : Prop :=
  (evenReg i.rd = true ∧ evenReg i.rs1 = true) ∨ s.policies.oddPair = .maskLowBit

/-- The count of an instruction is admitted: it is in the instruction, or the upper bits of its register are zero or ignored
(R80). -/
abbrev State.countAdmitted (s : State) (i : Instr) : Prop :=
  ∀ r, i.countReg? = some r → s.policies.regCountHigh = .ignore ∨ (s.readReg r).toNat < 64

/-- The instruction has its effect in this state (R93, "Next state"). -/
abbrev State.completes (s : State) (i : Instr) : Prop := s.pairsAdmitted i ∧ s.countAdmitted i

/-- The run has ended: the state is its final state (R112). -/
abbrev State.ended (s : State) : Prop := step s = .refused .endOfRun

/-- A step that has its effect: neither a fault nor a refusal (R93). -/
abbrev State.safeStep (s : State) : Prop := ∃ t, step s = .next t

end Sys2Proof.Machine
end

