-- ==== Sys2Proof/Certificates/Slice0/Obligations.lean ====
section
/-! DEFINITION. The statements for the provers. "R<n>" is a numbered rule of the spec, "D<n>" a decision that the spec marks
as its own, "log <n>" an entry of this model's assumption log. -/

open Sys2Proof Sys2Proof.Machine

/-! ### Encoding and decoding -/

/-- R46, R47, R48: every field of the word of each form. -/
def Obligations.EncodedWordLayout : Prop :=
  (∀ (op : ShiftOp) (rd rs1 : RegNum) (count : Count), let w := encode (directForm op rd rs1 count)
    w.extractLsb' 30 2 = 0b10#2 ∧ w.extractLsb' 25 5 = rd ∧ w.extractLsb' 19 6 = op3Of op ∧
    w.extractLsb' 14 5 = rs1 ∧ w.extractLsb' 13 1 = 1#1 ∧ w.extractLsb' 7 6 = 0b000000#6 ∧
    w.extractLsb' 6 1 = 1#1 ∧ w.extractLsb' 0 6 = count) ∧
  (∀ (op : ShiftOp) (rd rs1 rs2 : RegNum), let w := encode (registerForm op rd rs1 rs2)
    w.extractLsb' 30 2 = 0b10#2 ∧ w.extractLsb' 25 5 = rd ∧ w.extractLsb' 19 6 = op3Of op ∧
    w.extractLsb' 14 5 = rs1 ∧ w.extractLsb' 13 1 = 0#1 ∧ w.extractLsb' 7 6 = 0b000000#6 ∧
    w.extractLsb' 6 1 = 1#1 ∧ w.extractLsb' 5 1 = 0#1 ∧ w.extractLsb' 0 5 = rs2) ∧
  op3Of .slld = 0b100101#6 ∧ op3Of .srld = 0b100110#6 ∧ op3Of .srad = 0b100111#6

/-- Every instruction, with every operand the encoding admits, is what its word decodes to, under both values of
`UNUSED_BITS_POLICY`. -/
def Obligations.DecodeOfEncodedInstruction : Prop :=
  ∀ (p : UnusedBitsPolicy) (i : Instr), decode p (encode i) = .ok i

/-- A word that decodes is the word of the instruction it decodes to: under `strict` exactly, under `ignore` once its bits
12:7 are cleared. So no two words share an instruction but through bits that a policy ignores. -/
def Obligations.EncodeOfDecodedWord : Prop :=
  ∀ (w : Word) (i : Instr),
    (decode .strict w = .ok i → encode i = w) ∧
    (decode .ignore w = .ok i → encode i = w &&& 0xFFFFE07F#32)

/-- The bytes of an instruction, big-endian, decode to it and leave the bytes after them (R35, R45). -/
def Obligations.DecodeBytesOfEncodedBytes : Prop :=
  ∀ (p : UnusedBitsPolicy) (i : Instr) (rest : List Byte),
    decodeBytes p (encodeBytes i ++ rest) = .ok (i, rest) ∧ (encodeBytes i).length = 4

/-- R55, which the spec marks as derived from R46 to R51 and R54: its six steps in order, with the fields read by division as
R5 numbers the bits. -/
def Obligations.DecodeProcedure : Prop :=
  ∀ (p : UnusedBitsPolicy) (w : Word),
    let op := w.toNat / 2 ^ 30
    let op3 := w.toNat / 2 ^ 19 % 64
    let bit6 := w.toNat / 2 ^ 6 % 2
    let unused := w.toNat / 2 ^ 7 % 64
    let i := w.toNat / 2 ^ 13 % 2
    let bit5 := w.toNat / 2 ^ 5 % 2
    let rd := BitVec.ofNat 5 (w.toNat / 2 ^ 25)
    let rs1 := BitVec.ofNat 5 (w.toNat / 2 ^ 14)
    let inExtension := op = 2 ∧ (op3 = 0b100101 ∨ op3 = 0b100110 ∨ op3 = 0b100111) ∧ bit6 = 1
    let admitted := inExtension ∧ ¬(unused ≠ 0 ∧ p = .strict)
    (¬inExtension → decode p w = .error .notInExtension) ∧
    (inExtension → unused ≠ 0 → p = .strict → decode p w = .error .reservedEncoding) ∧
    (admitted → i = 1 →
      (op3 = 0b100101 → decode p w = .ok (.slldImm rd rs1 (BitVec.ofNat 6 w.toNat))) ∧
      (op3 = 0b100110 → decode p w = .ok (.srldImm rd rs1 (BitVec.ofNat 6 w.toNat))) ∧
      (op3 = 0b100111 → decode p w = .ok (.sradImm rd rs1 (BitVec.ofNat 6 w.toNat)))) ∧
    (admitted → i = 0 → bit5 = 0 →
      (op3 = 0b100101 → decode p w = .ok (.slldReg rd rs1 (BitVec.ofNat 5 w.toNat))) ∧
      (op3 = 0b100110 → decode p w = .ok (.srldReg rd rs1 (BitVec.ofNat 5 w.toNat))) ∧
      (op3 = 0b100111 → decode p w = .ok (.sradReg rd rs1 (BitVec.ofNat 5 w.toNat)))) ∧
    (admitted → i = 0 → bit5 = 1 → decode p w = .error .reservedEncoding)

/-- R51: a word encodes a form exactly when `w & mask = match`, with the match and mask words the rule prints; the same under
`ignore` with R54's masks; and the six rows do not overlap. -/
def Obligations.DecodeAgreesWithOpcodeTable : Prop :=
  (∀ (p : UnusedBitsPolicy) (w : Word),
    (∀ f : Form, (∃ i, decode p w = .ok i ∧ i.form = f) ↔ w &&& maskOf p f = matchOf f) ∧
    ∀ f g : Form, w &&& maskOf p f = matchOf f → w &&& maskOf p g = matchOf g → f = g) ∧
  (∀ w : Word, w.getLsbD 6 = false → ∀ p i, decode p w ≠ .ok i) ∧
  (matchOf .slldImm = 0x81282040#32 ∧ matchOf .srldImm = 0x81302040#32 ∧ matchOf .sradImm = 0x81382040#32 ∧
    matchOf .slldReg = 0x81280040#32 ∧ matchOf .srldReg = 0x81300040#32 ∧ matchOf .sradReg = 0x81380040#32) ∧
  ∀ f : Form,
    maskOf .strict f = (if f.isDirect then 0xC1F83FC0#32 else 0xC1F83FE0#32) ∧
    maskOf .ignore f = (if f.isDirect then 0xC1F82040#32 else 0xC1F82060#32)

/-- R54 (decision D10): under `strict` a word with one of bits 12:7 set is not decoded; under `ignore` a word executes as if
these bits were zero. -/
def Obligations.UnusedBitsPolicyDecides : Prop :=
  ∀ w : Word,
    (w.extractLsb' 7 6 ≠ 0#6 → ∀ i, decode .strict w ≠ .ok i) ∧
    (w.extractLsb' 7 6 = 0#6 → decode .strict w = decode .ignore w) ∧
    decode .ignore w = decode .strict (w &&& 0xFFFFE07F#32)

/-- R56 (decisions D11, D12): a fetched word outside the extension, and a reserved word of it, are refused by name; neither
is executed, and neither faults. -/
def Obligations.WordsThatAreNoInstructionAreRefused : Prop :=
  ∀ (s : State) (w : Word), fetch s = .next w →
    let op3 := w.extractLsb' 19 6
    let selected := w.extractLsb' 30 2 = 0b10#2 ∧ (op3 = 0b100101#6 ∨ op3 = 0b100110#6 ∨ op3 = 0b100111#6) ∧
      w.extractLsb' 6 1 = 1#1
    (¬selected → step s = .refused .notInExtension) ∧
    (selected → w.extractLsb' 7 6 ≠ 0#6 → s.policies.unusedBits = .strict → step s = .refused .reservedEncoding) ∧
    (selected → w.extractLsb' 13 1 = 0#1 → w.extractLsb' 5 1 = 1#1 → step s = .refused .reservedEncoding)

/-- Words that the spec's vectors write out, two for each operation (section 2.2 of the test vectors). -/
def Obligations.VectorWordsDecode : Prop :=
  decodeTableWord 32 0x8928A044 = some (.slldImm 4 2 4) ∧ decodeTableWord 32 0xBD37A07F = some (.srldImm 30 30 63) ∧
  decodeTableWord 32 0xB13D2060 = some (.sradImm 24 20 32) ∧ decodeTableWord 32 0x85288042 = some (.slldReg 2 2 2) ∧
  decodeTableWord 32 0xBD30805F = some (.srldReg 30 2 31) ∧ decodeTableWord 32 0x89390045 = some (.sradReg 4 4 5)

/-! ### The assembler -/

/-- R61, R62: the arguments of each form's macro give its match word; `OP_AJIT_BITS_5_AND_6(a)` places a in `insn[6:5]` and
nothing elsewhere, and sets `insn[6]` alone for a = 0x2; `F5(0x2, y, z)` is `0x80000000 | (y << 19) | (z << 13) | 0x40`,
which the spec marks as derived. -/
def Obligations.EncodingMacrosGiveMatchWords : Prop :=
  (macroF5 0x2#32 0x25#32 0x1#32 = 0x81282040#32 ∧ macroF5 0x2#32 0x26#32 0x1#32 = 0x81302040#32 ∧
    macroF5 0x2#32 0x27#32 0x1#32 = 0x81382040#32 ∧ macroF5 0x2#32 0x25#32 0x0#32 = 0x81280040#32 ∧
    macroF5 0x2#32 0x26#32 0x0#32 = 0x81300040#32 ∧ macroF5 0x2#32 0x27#32 0x0#32 = 0x81380040#32) ∧
  (∀ f : Form, macroF5 (macroArgs f).1 (macroArgs f).2.1 (macroArgs f).2.2 = matchOf f) ∧
  (∀ a : Word, (macroAjitBits a).extractLsb' 5 2 = a.extractLsb' 0 2 ∧ macroAjitBits a &&& 0xFFFFFF9F#32 = 0#32) ∧
  macroAjitBits 0x2#32 = 0x40#32 ∧
  ∀ y z : Word, y.toNat < 64 → z.toNat < 2 →
    macroF5 0x2#32 y z = 0x80000000#32 ||| (y <<< 19) ||| (z <<< 13) ||| 0x40#32

/-- R59 (decision D24): the ranges of the operands, no restriction of registers to even numbers, and nothing else is an
instruction. -/
def Obligations.AssemblyOperandRanges : Prop :=
  ∀ (m : String) (x y z : AsmOperand) (a b d : Nat),
    (m = "slld" ∨ m = "srld" ∨ m = "srad" →
      ((assemble ⟨m, .reg a, .num b, .reg d⟩).isSome = true ↔ a < 32 ∧ b < 64 ∧ d < 32) ∧
      ((assemble ⟨m, .reg a, .reg b, .reg d⟩).isSome = true ↔ a < 32 ∧ b < 32 ∧ d < 32)) ∧
    (¬(m = "slld" ∨ m = "srld" ∨ m = "srad") → assemble ⟨m, x, y, z⟩ = none) ∧
    assemble ⟨m, .num a, y, z⟩ = none ∧ assemble ⟨m, x, y, .num d⟩ = none

/-- An assembly line denotes an instruction exactly when it is that instruction's line: the order is source, count,
destination, and the second operand tells the version (R58). -/
def Obligations.AssemblyLineDenotesItsInstruction : Prop :=
  ∀ (l : AsmLine) (i : Instr), assemble l = some i ↔ l = disassemble i

/-! ### The 64-bit shift functions -/

/-- R71: bit k of `shl64(v, c)` is bit k - c of v, zeros enter below, and the value is `(v * 2^c) mod 2^64`. -/
def Obligations.LeftShiftLaw : Prop :=
  ∀ (v : DWord) (c : Count),
    (∀ k < 64, (shl64 v c).getLsbD k = if c.toNat ≤ k then v.getLsbD (k - c.toNat) else false) ∧
    (shl64 v c).toNat = v.toNat * 2 ^ c.toNat % 2 ^ 64

/-- R72: bit k of `lshr64(v, c)` is bit k + c of v, zeros enter above, and the value is `floor(v / 2^c)`. -/
def Obligations.LogicalRightShiftLaw : Prop :=
  ∀ (v : DWord) (c : Count),
    (∀ k < 64, (lshr64 v c).getLsbD k = if k + c.toNat ≤ 63 then v.getLsbD (k + c.toNat) else false) ∧
    (lshr64 v c).toNat = v.toNat / 2 ^ c.toNat

/-- R73: bit k of `ashr64(v, c)` is bit k + c of v, copies of the sign bit enter above, and the signed value is the floor of
the signed operand over `2^c`. -/
def Obligations.ArithmeticRightShiftLaw : Prop :=
  ∀ (v : DWord) (c : Count),
    (∀ k < 64, (ashr64 v c).getLsbD k = if k + c.toNat ≤ 63 then v.getLsbD (k + c.toNat) else v.getLsbD 63) ∧
    (ashr64 v c).toInt = ⌊(v.toInt : ℚ) / 2 ^ c.toNat⌋

/-- Counts 0, 32 and 63: the identity, the move of one word into the other half, and what is left of one bit (R74, which
the spec marks as derived). -/
def Obligations.BoundaryCounts : Prop :=
  ∀ v : DWord,
    (shl64 v 0 = v ∧ lshr64 v 0 = v ∧ ashr64 v 0 = v) ∧
    (shl64 v 32 = pairOfWords (lowWord v) 0#32 ∧ lshr64 v 32 = pairOfWords 0#32 (highWord v) ∧
      lowWord (ashr64 v 32) = highWord v ∧
      highWord (ashr64 v 32) = if v.getLsbD 63 then 0xFFFFFFFF#32 else 0#32) ∧
    ((∀ k < 64, (shl64 v 63).getLsbD k = (decide (k = 63) && v.getLsbD 0)) ∧
      (∀ k < 64, (lshr64 v 63).getLsbD k = (decide (k = 0) && v.getLsbD 63)) ∧
      ∀ k < 64, (ashr64 v 63).getLsbD k = v.getLsbD 63)

/-- SRAD and SRLD agree exactly where the sign bit of the operand is zero or nothing is shifted (tables T2 and T3 of the test
vectors, "Things to check"). -/
def Obligations.ArithmeticShiftAgreesOnPositive : Prop :=
  ∀ (v : DWord) (c : Count), ashr64 v c = lshr64 v c ↔ v.getLsbD 63 = false ∨ c = 0#6

/-! ### Registers and pairs -/

/-- R12 (decision D3): register 0 reads as zero, and a write to it changes nothing. -/
def Obligations.RegisterZeroIsHardwired : Prop :=
  ∀ (s : State) (v : Word), s.readReg 0#5 = 0#32 ∧ s.writeReg 0#5 v = s

/-- R14 (decision D4): the even register supplies bits 63:32 and the odd one bits 31:0; with n = 0 the value is x[1] extended
with zeros. -/
def Obligations.PairReadLaw : Prop :=
  ∀ s : State,
    (∀ (n m : RegNum), n.toNat % 2 = 0 → m.toNat = n.toNat + 1 →
      (s.readPair n).toNat = (s.readReg n).toNat * 2 ^ 32 + (s.readReg m).toNat) ∧
    s.readPair 0#5 = (s.readReg 1#5).setWidth 64

/-- R15 (decision D4): writing an even pair writes both halves, only x[1] when n = 0, and no other register; the counters,
the memory and the parameters stay. -/
def Obligations.PairWriteLaw : Prop :=
  ∀ (s : State) (n m : RegNum) (v : DWord), n.toNat % 2 = 0 → m.toNat = n.toNat + 1 →
    let t := s.writePair n v
    t.readReg n = (if n = 0#5 then 0#32 else v.extractLsb' 32 32) ∧ t.readReg m = v.extractLsb' 0 32 ∧
    (∀ k, k ≠ n → k ≠ m → t.readReg k = s.readReg k) ∧
    t.pc = s.pc ∧ t.npc = s.npc ∧ s.sameRun t

/-! ### The six instructions: their result, and that they complete -/

/-- SLLD, direct count: with even designators it completes, `pair(rd) <- pair(rs1) << count`, and nothing else but the
counters changes. -/
def Obligations.SlldImmShiftsThePair : Prop :=
  ∀ (rd rs1 : RegNum) (count : Count) (s : State), evenReg rd = true → evenReg rs1 = true →
    ∃ t, exec (.slldImm rd rs1 count) s = .next t ∧ s.shiftEffect t rd (s.readPair rs1 <<< count.toNat)

/-- SRLD, direct count: with even designators it completes, `pair(rd) <- pair(rs1) >> count` with zeros entering, and nothing
else but the counters changes. -/
def Obligations.SrldImmShiftsThePair : Prop :=
  ∀ (rd rs1 : RegNum) (count : Count) (s : State), evenReg rd = true → evenReg rs1 = true →
    ∃ t, exec (.srldImm rd rs1 count) s = .next t ∧ s.shiftEffect t rd (s.readPair rs1 >>> count.toNat)

/-- SRAD, direct count: with even designators it completes, `pair(rd) <- pair(rs1) >> count` with the sign entering, and
nothing else but the counters changes. -/
def Obligations.SradImmShiftsThePair : Prop :=
  ∀ (rd rs1 : RegNum) (count : Count) (s : State), evenReg rd = true → evenReg rs1 = true →
    ∃ t, exec (.sradImm rd rs1 count) s = .next t ∧
      s.shiftEffect t rd ((s.readPair rs1).sshiftRight count.toNat)

/-- SLLD, register indirect count: with even designators and an admitted count register it completes, shifting by the old
`x[rs2][5:0]`, whatever registers the fields share. -/
def Obligations.SlldRegShiftsThePair : Prop :=
  ∀ (rd rs1 rs2 : RegNum) (s : State), evenReg rd = true → evenReg rs1 = true →
    (s.policies.regCountHigh = .ignore ∨ (s.readReg rs2).toNat < 64) →
    ∃ t, exec (.slldReg rd rs1 rs2) s = .next t ∧
      s.shiftEffect t rd (s.readPair rs1 <<< ((s.readReg rs2).toNat % 64))

/-- SRLD, register indirect count: with even designators and an admitted count register it completes, shifting by the old
`x[rs2][5:0]` with zeros entering, whatever registers the fields share. -/
def Obligations.SrldRegShiftsThePair : Prop :=
  ∀ (rd rs1 rs2 : RegNum) (s : State), evenReg rd = true → evenReg rs1 = true →
    (s.policies.regCountHigh = .ignore ∨ (s.readReg rs2).toNat < 64) →
    ∃ t, exec (.srldReg rd rs1 rs2) s = .next t ∧
      s.shiftEffect t rd (s.readPair rs1 >>> ((s.readReg rs2).toNat % 64))

/-- SRAD, register indirect count: with even designators and an admitted count register it completes, shifting by the old
`x[rs2][5:0]` with the sign entering, whatever registers the fields share. -/
def Obligations.SradRegShiftsThePair : Prop :=
  ∀ (rd rs1 rs2 : RegNum) (s : State), evenReg rd = true → evenReg rs1 = true →
    (s.policies.regCountHigh = .ignore ∨ (s.readReg rs2).toNat < 64) →
    ∃ t, exec (.sradReg rd rs1 rs2) s = .next t ∧
      s.shiftEffect t rd ((s.readPair rs1).sshiftRight ((s.readReg rs2).toNat % 64))

/-! ### What the six instructions share -/

/-- R16 (decision D5): what an odd rd or rs1 does under each value of `ODD_PAIR_POLICY`; rs2 may be odd or even. -/
def Obligations.OddPairPolicyDecides : Prop :=
  ∀ (i : Instr) (s : State),
    (i.rd.toNat % 2 = 1 ∨ i.rs1.toNat % 2 = 1 →
      (s.policies.oddPair = .refuse → exec i s = .refused .oddPairRegister) ∧
      (s.policies.oddPair = .maskLowBit → exec i s = exec (withEvenPairs i) s) ∧
      (s.policies.oddPair = .trapIllegalInstruction → exec i s = .fault .illegalInstruction)) ∧
    ∀ (op : ShiftOp) (rd rs1 rs2 : RegNum), rd.toNat % 2 = 0 → rs1.toNat % 2 = 0 →
      exec (registerForm op rd rs1 rs2) s ≠ .refused .oddPairRegister ∧
      exec (registerForm op rd rs1 rs2) s ≠ .fault .illegalInstruction

/-- R80 (decision D6): a register form acts as the direct form whose count is `x[rs2][5:0]`; bits 31:6 are ignored or refused
as `REG_COUNT_HIGH_POLICY` says; rs2 = 0 is count 0; a register holding 64 is count 0 or a refusal. -/
def Obligations.CountComesFromTheLowSixBits : Prop :=
  ∀ (op : ShiftOp) (rd rs1 rs2 : RegNum) (s : State),
    (s.policies.regCountHigh = .ignore →
      exec (registerForm op rd rs1 rs2) s =
        exec (directForm op rd rs1 (BitVec.ofNat 6 ((s.readReg rs2).toNat % 64))) s) ∧
    ((s.readReg rs2).toNat < 64 →
      exec (registerForm op rd rs1 rs2) s = exec (directForm op rd rs1 (BitVec.ofNat 6 (s.readReg rs2).toNat)) s) ∧
    (s.policies.regCountHigh = .refuse → 64 ≤ (s.readReg rs2).toNat → rd.toNat % 2 = 0 → rs1.toNat % 2 = 0 →
      exec (registerForm op rd rs1 rs2) s = .refused .countRegisterHighBits) ∧
    exec (registerForm op rd rs1 0#5) s = exec (directForm op rd rs1 0#6) s ∧
    ((s.readReg rs2).toNat = 64 → s.policies.regCountHigh = .ignore →
      exec (registerForm op rd rs1 rs2) s = exec (directForm op rd rs1 0#6) s)

/-- R24 (decision D22): all reads come before any write, whatever registers rd, rs1 and rs2 share. The pair and the count
that the result is computed from are the values before the instruction, in every form that the policies admit; a designator
stands for its pair (`pairBase n` is n where n is even, R16). The last clause is the rule's example, `slld r2, r2, r2`. -/
def Obligations.OperandsAreReadBeforeTheWrite : Prop :=
  ∀ (op : ShiftOp) (rd rs1 rs2 : RegNum) (count : Count) (s : State),
    (s.completes (registerForm op rd rs1 rs2) → ∃ t, exec (registerForm op rd rs1 rs2) s = .next t ∧
      s.shiftEffect t (pairBase rd)
        (shiftFunction op (s.readPair (pairBase rs1)) ((s.readReg rs2).extractLsb' 0 6))) ∧
    (s.completes (directForm op rd rs1 count) → ∃ t, exec (directForm op rd rs1 count) s = .next t ∧
      s.shiftEffect t (pairBase rd) (shiftFunction op (s.readPair (pairBase rs1)) count)) ∧
    (∀ n : RegNum, n.toNat % 2 = 0 → pairBase n = n) ∧
    (s.countAdmitted (.slldReg 2 2 2) → ∃ t, exec (.slldReg 2 2 2) s = .next t ∧
      s.shiftEffect t 2 (shl64 (s.readPair 2) ((s.readReg 2).extractLsb' 0 6)))

/-- The frame of all six forms: when one answers a next state, every register outside the destination pair (rd with its
lowest bit ignored, and the register after it), every byte of memory and every parameter is as before, and x[0] is zero. -/
def Obligations.FrameOfEveryShift : Prop :=
  ∀ (i : Instr) (s t : State), exec i s = .next t →
    (∀ k : RegNum, k ≠ pairBase i.rd → k ≠ pairBase i.rd + 1#5 → t.readReg k = s.readReg k) ∧
    t.readReg 0#5 = 0#32 ∧ s.sameRun t

/-- R22: what a form writes depends only on the registers it reads (the source pair and, in a register form, the count
register) and on the policies; in particular it does not depend on the destination pair. Only the destination pair is
written. -/
def Obligations.ResultDependsOnlyOnItsSources : Prop :=
  ∀ (i : Instr) (s u t : State), s.policies = u.policies →
    s.readReg (pairBase i.rs1) = u.readReg (pairBase i.rs1) →
    s.readReg (pairBase i.rs1 + 1#5) = u.readReg (pairBase i.rs1 + 1#5) →
    (∀ r, i.countReg? = some r → s.readReg r = u.readReg r) →
    exec i s = .next t →
    ∃ v, exec i u = .next v ∧ v.readReg (pairBase i.rd) = t.readReg (pairBase i.rd) ∧
      v.readReg (pairBase i.rd + 1#5) = t.readReg (pairBase i.rd + 1#5) ∧
      ∀ k : RegNum, k ≠ pairBase i.rd → k ≠ pairBase i.rd + 1#5 →
        v.readReg k = u.readReg k ∧ t.readReg k = s.readReg k

/-- Every form advances the counters alike, `pc <- npc; npc <- npc + 4` modulo 2^32 (decision D13). -/
def Obligations.EveryShiftAdvancesTheCounters : Prop :=
  ∀ (i : Instr) (s t : State), exec i s = .next t → t.pc = s.npc ∧ t.npc.toNat = (s.npc.toNat + 4) % 2 ^ 32

/-- R90 (decision D9): no form raises an exception of its own. With even designators no form faults, and the one fault there
is needs the policy that asks for it. -/
def Obligations.NoShiftRaisesAnException : Prop :=
  ∀ (i : Instr) (s : State) (f : Fault),
    (i.wellFormed = true → exec i s ≠ .fault f) ∧
    (exec i s = .fault f → s.policies.oddPair = .trapIllegalInstruction ∧ i.wellFormed = false)

/-- An instruction answers a next state exactly when its designators and its count are admitted. -/
def Obligations.ExecCompletesExactlyWhenAdmitted : Prop :=
  ∀ (i : Instr) (s : State), (∃ t, exec i s = .next t) ↔ s.completes i

/-! ### Fetch and step -/

/-- A step runs the decoded instruction: when the four bytes at an aligned pc inside the program decode to i, the step is
exec of i, and nothing is done around it. -/
def Obligations.StepRunsTheDecodedInstruction : Prop :=
  ∀ (s : State) (b0 b1 b2 b3 : Byte) (i : Instr) (k : Nat),
    s.pc.toNat % 4 = 0 → s.npc.toNat % 4 = 0 → k < s.programLen → s.pc = s.startPc + BitVec.ofNat 32 (4 * k) →
    s.mem.readByte s.pc.toNat = some b0 → s.mem.readByte (s.pc.toNat + 1) = some b1 →
    s.mem.readByte (s.pc.toNat + 2) = some b2 → s.mem.readByte (s.pc.toNat + 3) = some b3 →
    decodeBytes s.policies.unusedBits [b0, b1, b2, b3] = .ok (i, []) →
    step s = exec i s

/-- R36 (decision D15): a fetch with `pc[1:0]` not zero is refused, whatever else holds. -/
def Obligations.MisalignedFetchIsRefused : Prop :=
  ∀ s : State, s.pc.extractLsb' 0 2 ≠ 0#2 → step s = .refused .misalignedFetch

/-- R31 and R35 (decisions D14, D16): word k of the program stands at `START_PC + 4*k` modulo 2^32, its bytes big-endian;
every address outside the program holds nothing and no fetch there is admitted; no step changes the program or its place. -/
def Obligations.ProgramStandsInTheAddressSpace : Prop :=
  (∀ (s : State) (start : Word) (ws : List Word), ws.length ≤ 2 ^ 30 →
    let m := (s.withProgram start ws).mem
    (∀ (k : Nat) (hk : k < ws.length) (j : Nat), j < 4 →
      m.readByte (start + BitVec.ofNat 32 (4 * k + j)).toNat = some ((ws[k]).extractLsb' (24 - 8 * j) 8)) ∧
    ∀ a : Word, 4 * ws.length ≤ (a - start).toNat →
      m.readByte a.toNat = none ∧ ∀ npc w, fetch { s.withProgram start ws with pc := a, npc := npc } ≠ .next w) ∧
  ∀ s t : State, step s = .next t → s.sameRun t

/-- Fetch admission: at `START_PC + 4*k` the program's word k is fetched; at the address after the last word the run has
ended; every other aligned pc is refused. That the ended run is answered by the refusal `endOfRun` is the model's choice
(log 5); that npc is tested too is log 14. -/
def Obligations.FetchReturnsTheProgramWord : Prop :=
  ∀ (s : State) (start npc : Word) (ws : List Word), ws.length < 2 ^ 30 → start.toNat % 4 = 0 → npc.toNat % 4 = 0 →
    (∀ (k : Nat) (hk : k < ws.length),
      fetch { s.withProgram start ws with pc := start + BitVec.ofNat 32 (4 * k), npc := npc } = .next ws[k]) ∧
    step { s.withProgram start ws with pc := start + BitVec.ofNat 32 (4 * ws.length), npc := npc } =
      .refused .endOfRun ∧
    ∀ pc : Word, pc.toNat % 4 = 0 → 4 * ws.length < (pc - start).toNat →
      step { s.withProgram start ws with pc := pc, npc := npc } = .refused .fetchOutsideProgram

/-- A step answers a next state exactly when the counters are aligned, pc is a program address, the word there decodes, and
the instruction's designators and count are admitted. Two clauses are the model's: that npc is asked to be aligned (log 14),
and that a program address is fetched from although it is also the end address, as in a program of 2^30 words or more
(log 6). -/
def Obligations.StepCompletesExactlyWhen : Prop :=
  ∀ s : State, s.safeStep ↔
    s.pc.toNat % 4 = 0 ∧ s.npc.toNat % 4 = 0 ∧
    (∃ k < s.programLen, s.pc = s.startPc + BitVec.ofNat 32 (4 * k)) ∧
    ∃ w i, s.mem.readWord s.pc = some w ∧ decode s.policies.unusedBits w = .ok i ∧ s.completes i

/-- The order in which the conditions of one step are tested: alignment, program, decode, designators, count; the first that
applies decides. The model's own are the clause on npc (log 14), the refusal `endOfRun` (log 5) with its place after the
program addresses (log 6), and the refusal of a program address whose word is not in the memory (log 7).
(`UnwrittenRegister` cannot arise: log 3.) -/
def Obligations.FirstConditionDecides : Prop :=
  ∀ s : State,
    (s.pc.toNat % 4 ≠ 0 → step s = .refused .misalignedFetch) ∧
    (s.npc.toNat % 4 ≠ 0 → step s = .refused .misalignedFetch) ∧
    (s.pc.toNat % 4 = 0 → s.npc.toNat % 4 = 0 →
      ((∀ k ≤ s.programLen, s.pc ≠ s.startPc + BitVec.ofNat 32 (4 * k)) → step s = .refused .fetchOutsideProgram) ∧
      ((∀ k < s.programLen, s.pc ≠ s.startPc + BitVec.ofNat 32 (4 * k)) →
        s.pc = s.startPc + BitVec.ofNat 32 (4 * s.programLen) → step s = .refused .endOfRun) ∧
      ((∃ k < s.programLen, s.pc = s.startPc + BitVec.ofNat 32 (4 * k)) →
        (s.mem.readWord s.pc = none → step s = .refused .fetchOutsideProgram) ∧
        ∀ w, s.mem.readWord s.pc = some w → fetch s = .next w)) ∧
    ∀ w, fetch s = .next w →
      (∀ e, decode s.policies.unusedBits w = .error e → step s = .refused (refusalOf e) ∧ e ≠ .truncated) ∧
      ∀ i, decode s.policies.unusedBits w = .ok i →
        (i.wellFormed = false → s.policies.oddPair = .refuse → step s = .refused .oddPairRegister) ∧
        (i.wellFormed = false → s.policies.oddPair = .trapIllegalInstruction → step s = .fault .illegalInstruction) ∧
        (s.pairsAdmitted i → ¬s.countAdmitted i → step s = .refused .countRegisterHighBits)

/-- The fault outcome of a step needs `trap_illegal_instruction` and an instruction with an odd designator. -/
def Obligations.StepFaultsOnlyOnOddPairUnderTrapPolicy : Prop :=
  ∀ (s : State) (f : Fault), step s = .fault f →
    s.policies.oddPair = .trapIllegalInstruction ∧
    ∃ w i, fetch s = .next w ∧ decode s.policies.unusedBits w = .ok i ∧ i.wellFormed = false

/-! ### The start of a run, and what holds throughout it -/

/-- The state at reset is a start state: x[0] is zero, pc is `START_PC`, a multiple of 4, and npc is `START_PC + 4`, and it
is admissible. The value of `START_PC` and of the other registers is the model's choice and is not stated (logs 3, 4). -/
def Obligations.ResetIsAnAdmissibleStart : Prop :=
  State.reset.readReg 0#5 = 0#32 ∧ State.reset.pc = State.reset.startPc ∧ State.reset.startPc.toNat % 4 = 0 ∧
  State.reset.npc = State.reset.startPc + 4#32 ∧ State.reset.admissible

/-- Every start state with an aligned `START_PC` and a program shorter than the address space (log 6) holds what it is given
and is admissible: the counters, x[0], the other registers, the policies (decision D20). -/
def Obligations.StartStateIsAdmissible : Prop :=
  ∀ (regs : Vector Word 32) (start : Word) (ws : List Word) (pol : Policies),
    start.toNat % 4 = 0 → ws.length < 2 ^ 30 →
    let s := State.start regs start ws pol
    s.pc = start ∧ s.npc = start + 4#32 ∧ s.readReg 0#5 = 0#32 ∧
    (∀ (k : Nat) (hk : k < 32), k ≠ 0 → s.readReg (BitVec.ofNat 5 k) = regs[k]) ∧
    s.policies = pol ∧ s.programLen = ws.length ∧ s.admissible

/-- Every step keeps what holds at the start of a run: x[0] zero, aligned counters with `npc = pc + 4`, the program in its
place, the memory in its canonical form. -/
def Obligations.StepKeepsAdmissible : Prop :=
  ∀ s t : State, s.admissible → step s = .next t → t.admissible

/-- In an admissible state no fetch is misaligned, and a fetch inside the program answers a word. -/
def Obligations.AdmissibleStateFetches : Prop :=
  ∀ s : State, s.admissible →
    step s ≠ .refused .misalignedFetch ∧
    ((∃ k < s.programLen, s.pc = s.startPc + BitVec.ofNat 32 (4 * k)) → ∃ w, fetch s = .next w) ∧
    ((∀ k ≤ s.programLen, s.pc ≠ s.startPc + BitVec.ofNat 32 (4 * k)) → step s = .refused .fetchOutsideProgram)

/-- In an admissible state the run has ended exactly when pc is the address after the program's last word (R112; the
refusal's name is the model's, log 5). -/
def Obligations.RunEndsAfterTheLastWord : Prop :=
  ∀ s : State, s.admissible → (s.ended ↔ s.pc = s.startPc + BitVec.ofNat 32 (4 * s.programLen))

/-- The counters wrap at the top of the address space: an instruction at 0xFFFFFFFC with npc = 0 is followed by the one at
address 0. -/
def Obligations.CountersWrapAtTheTop : Prop :=
  ∀ (i : Instr) (s : State), s.completes i → s.pc = 0xFFFFFFFC#32 → s.npc = 0#32 →
    ∃ t, exec i s = .next t ∧ t.pc = 0#32 ∧ t.npc = 4#32
end

