-- ==== Sys2Proof/Laws/Memory.lean ====
section
/-! SUPPORT. The laws of the memory: a byte reads as it was last written, and every operation keeps the canonical form. -/

namespace Sys2Proof.Machine

/-- What any address reads after a write to any address, in every memory, canonical or not. -/
theorem readByte_writeByte (m : Memory) (k a : Nat) (v : Byte) :
    (m.writeByte k v).readByte a = if k = a then some v else m.readByte a := by
  induction m with
  | nil => simp [Memory.writeByte, Memory.readByte]
  | cons c rest ih =>
    obtain ⟨b, w⟩ := c
    simp only [Memory.writeByte]
    split
    · simp [Memory.readByte]
    · split
      · next h => subst h; simp only [Memory.readByte]; split <;> rfl
      · next h =>
        simp only [Memory.readByte, ih]
        by_cases e : b = a
        · have : k ≠ a := fun h' => h (h'.trans e.symm)
          simp [e, this]
        · simp [e]

/-- A cell of a memory after a write is the cell written or was there before. -/
theorem mem_writeByte (m : Memory) (k : Nat) (v : Byte) (c : Host.Cell) (h : c ∈ m.writeByte k v) :
    c = (k, v) ∨ c ∈ m := by
  induction m with
  | nil => simpa [Memory.writeByte] using h
  | cons d rest ih =>
    obtain ⟨b, w⟩ := d
    simp only [Memory.writeByte] at h
    split at h
    · simpa using h
    · split at h
      · rcases List.mem_cons.mp h with h | h
        · exact .inl h
        · exact .inr (List.mem_cons_of_mem _ h)
      · rcases List.mem_cons.mp h with h | h
        · exact .inr (h ▸ List.mem_cons_self)
        · exact (ih h).imp id (List.mem_cons_of_mem _)

/-- Writing a byte inside the address space keeps the canonical form. -/
theorem writeByte_wf (m : Memory) (k : Nat) (v : Byte) (hk : k < 2 ^ 32) (h : Memory.wf m) :
    Memory.wf (m.writeByte k v) := by
  constructor
  · have hp := h.1
    clear h hk
    induction m with
    | nil => simp [Memory.writeByte]
    | cons d rest ih =>
      obtain ⟨b, w⟩ := d
      have hb : ∀ c ∈ rest, b < c.1 := (List.pairwise_cons.mp hp).1
      have hr := (List.pairwise_cons.mp hp).2
      simp only [Memory.writeByte]
      split
      · next hlt =>
        refine List.pairwise_cons.mpr ⟨fun c hc => ?_, hp⟩
        rcases List.mem_cons.mp hc with rfl | hc
        · exact hlt
        · exact lt_trans hlt (hb c hc)
      · split
        · next heq => exact List.pairwise_cons.mpr ⟨fun c hc => heq ▸ hb c hc, hr⟩
        · next hlt hne =>
          refine List.pairwise_cons.mpr ⟨fun c hc => ?_, ih hr⟩
          rcases mem_writeByte rest k v c hc with rfl | hc
          · show b < k; omega
          · exact hb c hc
  · intro c hc
    rcases mem_writeByte m k v c hc with rfl | hc
    · exact hk
    · exact h.2 c hc

/-- Writing a word keeps the canonical form. -/
theorem writeWord_wf (m : Memory) (a w : Word) (h : Memory.wf m) : Memory.wf (m.writeWord a w) :=
  writeByte_wf _ _ _ (BitVec.isLt _) <| writeByte_wf _ _ _ (BitVec.isLt _) <|
    writeByte_wf _ _ _ (BitVec.isLt _) <| writeByte_wf _ _ _ (BitVec.isLt _) h

/-- Writing words keeps the canonical form. -/
theorem writeWords_wf (ws : List Word) : ∀ (m : Memory) (a : Word), Memory.wf m → Memory.wf (m.writeWords a ws) := by
  induction ws with
  | nil => intro m a h; exact h
  | cons w ws ih => intro m a h; exact ih _ _ (writeWord_wf m a w h)

/-- The memory at reset has the canonical form. -/
theorem reset_mem_wf : Memory.wf State.reset.mem := by decide

/-- Placing a program gives a memory in the canonical form. -/
theorem withProgram_mem_wf (s : State) (start : Word) (ws : List Word) : Memory.wf (s.withProgram start ws).mem :=
  writeWords_wf ws _ _ (by decide)

/-- Placing a word where the next step fetches keeps the canonical form. -/
theorem placeWord_mem_wf (s : State) (w : Word) (h : Memory.wf s.mem) : Memory.wf (s.placeWord w).mem := by
  unfold State.placeWord
  dsimp only
  split
  · exact writeWord_wf _ _ _ h
  · exact withProgram_mem_wf _ _ _

/-- A word is the four bytes it was split into (R35). -/
@[simp] theorem wordOfBytes_byteOfWord (w : Word) :
    wordOfBytes (byteOfWord w 0) (byteOfWord w 1) (byteOfWord w 2) (byteOfWord w 3) = w := by
  apply BitVec.eq_of_getLsbD_eq
  intro i hi
  simp only [wordOfBytes, placeField, byteOfWord, BitVec.getLsbD_or, BitVec.getLsbD_shiftLeft, BitVec.getLsbD_setWidth,
    BitVec.getLsbD_extractLsb']
  interval_cases i <;> simp

/-- What any byte reads after a word is written: the word's bytes lie big-endian from its address up (R35). -/
theorem readByte_writeWord (m : Memory) (a w : Word) (k : Nat) :
    (m.writeWord a w).readByte k =
      if (a + 3#32).toNat = k then some (byteOfWord w 3)
      else if (a + 2#32).toNat = k then some (byteOfWord w 2)
      else if (a + 1#32).toNat = k then some (byteOfWord w 1)
      else if a.toNat = k then some (byteOfWord w 0)
      else m.readByte k := by
  simp only [Memory.writeWord, readByte_writeByte]

/-- A word reads as it was written, at every address, also where it wraps round the top of the address space. -/
@[simp] theorem readWord_writeWord (m : Memory) (a w : Word) : (m.writeWord a w).readWord a = some w := by
  have h1 : (a + 1#32).toNat ≠ a.toNat := by bv_omega
  have h2 : (a + 2#32).toNat ≠ a.toNat := by bv_omega
  have h3 : (a + 3#32).toNat ≠ a.toNat := by bv_omega
  have h12 : (a + 2#32).toNat ≠ (a + 1#32).toNat := by bv_omega
  have h13 : (a + 3#32).toNat ≠ (a + 1#32).toNat := by bv_omega
  have h23 : (a + 3#32).toNat ≠ (a + 2#32).toNat := by bv_omega
  simp only [Memory.readWord, readByte_writeWord, h1, h2, h3, h12, h13, h23, if_true, if_false]
  exact congrArg some (wordOfBytes_byteOfWord w)

end Sys2Proof.Machine
end

