-- ==== Sys2Proof/Laws/PerInstr.lean ====
section
/-! SUPPORT. One family of statements about the instruction as syntax, instruction by instruction: the fixed bits of its
word (R46, R51). -/

namespace Sys2Proof.Laws.FixedBits

/-- The word of the instruction has op = 10, bits 12:7 zero and bit 6 one (R46, R51, R54). -/
def Statement (i : Instr) : Prop :=
  fieldOp (encode i) = 0b10#2 ∧ fieldUnused (encode i) = 0#6 ∧ fieldAjit (encode i) = 1#1

/-- The fixed bits of a direct count word (R47). -/
theorem direct (op : ShiftOp) (rd rs1 : RegNum) (count : Count) :
    fieldOp (encodeDirect op rd rs1 count) = 0b10#2 ∧ fieldUnused (encodeDirect op rd rs1 count) = 0#6 ∧
      fieldAjit (encodeDirect op rd rs1 count) = 1#1 := by
  refine ⟨?_, ?_, ?_⟩ <;> apply BitVec.eq_of_getLsbD_eq <;> intro i hi <;>
    simp only [fieldOp, fieldUnused, fieldAjit, encodeDirect, encodeCommon, placeField,
      BitVec.getLsbD_extractLsb', BitVec.getLsbD_or, BitVec.getLsbD_shiftLeft, BitVec.getLsbD_setWidth] <;>
    interval_cases i <;> simp

/-- The fixed bits of a register indirect word (R48). -/
theorem register (op : ShiftOp) (rd rs1 rs2 : RegNum) :
    fieldOp (encodeRegister op rd rs1 rs2) = 0b10#2 ∧ fieldUnused (encodeRegister op rd rs1 rs2) = 0#6 ∧
      fieldAjit (encodeRegister op rd rs1 rs2) = 1#1 := by
  refine ⟨?_, ?_, ?_⟩ <;> apply BitVec.eq_of_getLsbD_eq <;> intro i hi <;>
    simp only [fieldOp, fieldUnused, fieldAjit, encodeRegister, encodeCommon, placeField,
      BitVec.getLsbD_extractLsb', BitVec.getLsbD_or, BitVec.getLsbD_shiftLeft, BitVec.getLsbD_setWidth] <;>
    interval_cases i <;> simp

theorem slldImm (rd rs1 : RegNum) (count : Count) : Statement (.slldImm rd rs1 count) := direct .slld rd rs1 count
theorem srldImm (rd rs1 : RegNum) (count : Count) : Statement (.srldImm rd rs1 count) := direct .srld rd rs1 count
theorem sradImm (rd rs1 : RegNum) (count : Count) : Statement (.sradImm rd rs1 count) := direct .srad rd rs1 count
theorem slldReg (rd rs1 rs2 : RegNum) : Statement (.slldReg rd rs1 rs2) := register .slld rd rs1 rs2
theorem srldReg (rd rs1 rs2 : RegNum) : Statement (.srldReg rd rs1 rs2) := register .srld rd rs1 rs2
theorem sradReg (rd rs1 rs2 : RegNum) : Statement (.sradReg rd rs1 rs2) := register .srad rd rs1 rs2

end Sys2Proof.Laws.FixedBits
end

