-- ==== Sys2Proof/Laws/State.lean ====
section
/-! SUPPORT. What each update of the state leaves in each field, and what a register reads after each update. -/

namespace Sys2Proof.Machine

/-! ### Advancing the counters -/

@[simp] theorem advance_regs (s : State) : s.advance.regs = s.regs := rfl
@[simp] theorem advance_pc (s : State) : s.advance.pc = s.npc := rfl
@[simp] theorem advance_npc (s : State) : s.advance.npc = s.npc + 4#32 := rfl
@[simp] theorem advance_startPc (s : State) : s.advance.startPc = s.startPc := rfl
@[simp] theorem advance_programLen (s : State) : s.advance.programLen = s.programLen := rfl
@[simp] theorem advance_mem (s : State) : s.advance.mem = s.mem := rfl
@[simp] theorem advance_policies (s : State) : s.advance.policies = s.policies := rfl
@[simp] theorem advance_readReg (s : State) (n : RegNum) : s.advance.readReg n = s.readReg n := rfl
@[simp] theorem advance_readPair (s : State) (n : RegNum) : s.advance.readPair n = s.readPair n := rfl

/-! ### Placing a program -/

@[simp] theorem withProgram_regs (s : State) (a : Word) (ws : List Word) : (s.withProgram a ws).regs = s.regs := rfl
@[simp] theorem withProgram_pc (s : State) (a : Word) (ws : List Word) : (s.withProgram a ws).pc = s.pc := rfl
@[simp] theorem withProgram_npc (s : State) (a : Word) (ws : List Word) : (s.withProgram a ws).npc = s.npc := rfl
@[simp] theorem withProgram_startPc (s : State) (a : Word) (ws : List Word) : (s.withProgram a ws).startPc = a := rfl
@[simp] theorem withProgram_programLen (s : State) (a : Word) (ws : List Word) :
    (s.withProgram a ws).programLen = ws.length := rfl
@[simp] theorem withProgram_policies (s : State) (a : Word) (ws : List Word) :
    (s.withProgram a ws).policies = s.policies := rfl

/-! ### Writing a register -/

@[simp] theorem writeReg_pc (s : State) (n : RegNum) (v : Word) : (s.writeReg n v).pc = s.pc := by
  unfold State.writeReg; split <;> rfl
@[simp] theorem writeReg_npc (s : State) (n : RegNum) (v : Word) : (s.writeReg n v).npc = s.npc := by
  unfold State.writeReg; split <;> rfl
@[simp] theorem writeReg_startPc (s : State) (n : RegNum) (v : Word) : (s.writeReg n v).startPc = s.startPc := by
  unfold State.writeReg; split <;> rfl
@[simp] theorem writeReg_programLen (s : State) (n : RegNum) (v : Word) :
    (s.writeReg n v).programLen = s.programLen := by
  unfold State.writeReg; split <;> rfl
@[simp] theorem writeReg_mem (s : State) (n : RegNum) (v : Word) : (s.writeReg n v).mem = s.mem := by
  unfold State.writeReg; split <;> rfl
@[simp] theorem writeReg_policies (s : State) (n : RegNum) (v : Word) : (s.writeReg n v).policies = s.policies := by
  unfold State.writeReg; split <;> rfl

/-- The cell of x[0] is never written (R12). -/
@[simp] theorem writeReg_cell_zero (s : State) (n : RegNum) (v : Word) : (s.writeReg n v).regs[0] = s.regs[0] := by
  unfold State.writeReg
  split
  · rfl
  · next h =>
    have : n.toNat ≠ 0 := fun e => h (BitVec.eq_of_toNat_eq e)
    simp [this]

/-- What any register reads after a write to any register (R12). -/
theorem readReg_writeReg (s : State) (n k : RegNum) (v : Word) :
    (s.writeReg n v).readReg k = if k = 0#5 then 0#32 else if k = n then v else s.readReg k := by
  unfold State.writeReg State.readReg
  by_cases hk : k = 0#5
  · simp [hk]
  · by_cases hn : n = 0#5
    · have : k ≠ n := fun e => hk (e.trans hn)
      simp [hk, hn]
    · by_cases e : k = n
      · subst e; simp [hk]
      · have : n.toNat ≠ k.toNat := fun h => e (BitVec.eq_of_toNat_eq h.symm)
        simp [hk, hn, e, this]

/-! ### The two words of a pair -/

/-- A bit of a pair comes from the odd register below bit 32 and from the even register above it (R14). -/
theorem getLsbD_pairOfWords (hi lo : Word) (k : Nat) :
    (pairOfWords hi lo).getLsbD k = if k < 32 then lo.getLsbD k else hi.getLsbD (k - 32) := by
  unfold pairOfWords
  exact BitVec.getLsbD_append

@[simp] theorem highWord_pairOfWords (hi lo : Word) : highWord (pairOfWords hi lo) = hi := by
  apply BitVec.eq_of_getLsbD_eq
  intro i hi'
  simp [highWord, getLsbD_pairOfWords, hi']

@[simp] theorem lowWord_pairOfWords (hi lo : Word) : lowWord (pairOfWords hi lo) = lo := by
  apply BitVec.eq_of_getLsbD_eq
  intro i hi'
  simp [lowWord, getLsbD_pairOfWords, hi']

@[simp] theorem pairOfWords_highWord_lowWord (v : DWord) : pairOfWords (highWord v) (lowWord v) = v := by
  apply BitVec.eq_of_getLsbD_eq
  intro i hi'
  simp only [getLsbD_pairOfWords, highWord, lowWord, BitVec.getLsbD_extractLsb']
  split
  · next h => simp [h]
  · next h =>
    have h1 : i - 32 < 32 := by omega
    have h2 : 32 + (i - 32) = i := by omega
    simp [h1, h2]

/-! ### Writing a pair -/

@[simp] theorem writePair_pc (s : State) (n : RegNum) (v : DWord) : (s.writePair n v).pc = s.pc := by
  simp [State.writePair]
@[simp] theorem writePair_npc (s : State) (n : RegNum) (v : DWord) : (s.writePair n v).npc = s.npc := by
  simp [State.writePair]
@[simp] theorem writePair_startPc (s : State) (n : RegNum) (v : DWord) : (s.writePair n v).startPc = s.startPc := by
  simp [State.writePair]
@[simp] theorem writePair_programLen (s : State) (n : RegNum) (v : DWord) :
    (s.writePair n v).programLen = s.programLen := by
  simp [State.writePair]
@[simp] theorem writePair_mem (s : State) (n : RegNum) (v : DWord) : (s.writePair n v).mem = s.mem := by
  simp [State.writePair]
@[simp] theorem writePair_policies (s : State) (n : RegNum) (v : DWord) : (s.writePair n v).policies = s.policies := by
  simp [State.writePair]
@[simp] theorem writePair_cell_zero (s : State) (n : RegNum) (v : DWord) : (s.writePair n v).regs[0] = s.regs[0] := by
  simp [State.writePair]

/-- What any register reads after the write of an even pair (R12, R15). -/
theorem readReg_writePair_advance (s : State) (n k : RegNum) (v : DWord) (hn : evenReg n = true) :
    (s.writePair n v).advance.readReg k =
      if k = 0#5 then 0#32 else if k = n then highWord v else if k = n + 1#5 then lowWord v else s.readReg k := by
  have hne : n + 1#5 ≠ n := by revert n; decide
  simp only [advance_readReg, State.writePair, readReg_writeReg]
  by_cases h0 : k = 0#5
  · simp [h0]
  · by_cases h1 : k = n
    · subst h1
      simp [h0, hne.symm]
    · simp [h0, h1]

end Sys2Proof.Machine
end

