-- ==== Sys2Proof/Laws/Shift.lean ====
section
/-! SUPPORT. Everything the shared part of the six meanings can do, said once. -/

namespace Sys2Proof.Machine

/-- The parts of a sequence that answers a next state. -/
theorem andThen_next {α β : Type} {r : Host.Outcome α Fault Refusal} {k : α → Host.Outcome β Fault Refusal} {b : β} :
    andThen r k = .next b ↔ ∃ a, r = .next a ∧ k a = .next b := by
  cases r <;> simp [andThen]

/-- A sequence faults in its first part or in its second. -/
theorem andThen_fault {α β : Type} {r : Host.Outcome α Fault Refusal} {k : α → Host.Outcome β Fault Refusal} {f : Fault} :
    andThen r k = .fault f ↔ r = .fault f ∨ ∃ a, r = .next a ∧ k a = .fault f := by
  cases r <;> simp [andThen]

/-- A sequence is refused in its first part or in its second. -/
theorem andThen_refused {α β : Type} {r : Host.Outcome α Fault Refusal} {k : α → Host.Outcome β Fault Refusal}
    {e : Refusal} : andThen r k = .refused e ↔ r = .refused e ∨ ∃ a, r = .next a ∧ k a = .refused e := by
  cases r <;> simp [andThen]

/-- Going on from an answer. -/
@[simp] theorem andThen_of_next {α β : Type} (a : α) (k : α → Host.Outcome β Fault Refusal) :
    andThen (.next a) k = k a := rfl

/-- Ignoring the lowest bit clears it. -/
theorem maskLowBit_eq (n : RegNum) : maskLowBit n = n &&& 0b11110#5 := by revert n; decide

/-- A number with its lowest bit ignored is even. -/
@[simp] theorem evenReg_mask (n : RegNum) : evenReg (n &&& 0b11110#5) = true := by revert n; decide

/-- An even number is unchanged when its lowest bit is ignored. -/
theorem mask_of_even (n : RegNum) (h : evenReg n = true) : n &&& 0b11110#5 = n := by revert n; decide

/-- Everything the check of the designators can answer (R16): with both even, the designators; else what the policy says. -/
theorem choosePairs_eq (p : OddPairPolicy) (rd rs1 : RegNum) :
    choosePairs p rd rs1 =
      if evenReg rd = true ∧ evenReg rs1 = true then .next (rd, rs1)
      else if p = .maskLowBit then .next (rd &&& 0b11110#5, rs1 &&& 0b11110#5)
      else if p = .refuse then .refused .oddPairRegister
      else .fault .illegalInstruction := by
  unfold choosePairs
  cases evenReg rd <;> cases evenReg rs1 <;> cases p <;> simp [maskLowBit_eq]

/-- Everything reading the count can answer: a count, or the refusal of the upper bits (R80). -/
theorem readCount_next (c : CountOperand) (s : State) (k : Count) (h : readCount c s = .next k) :
    (c = .direct k) ∨ ∃ r, c = .register r ∧ k = (s.readReg r).extractLsb' 0 6 := by
  cases c with
  | direct d =>
    simp only [readCount, Host.Outcome.next.injEq] at h
    exact .inl (congrArg _ h)
  | register r =>
    simp only [readCount, countOfWord] at h
    split at h
    · cases h
    · exact .inr ⟨r, rfl, by simpa using h.symm⟩

/-- If a shift answers next, it read an admitted source pair and a count, wrote the destination pair and advanced the
counters, and did nothing else (R70). -/
theorem shiftPair_next (f : DWord → Count → DWord) (rd rs1 : RegNum) (c : CountOperand) (s t : State) :
    shiftPair f rd rs1 c s = .next t ↔
      ∃ d src k, choosePairs s.policies.oddPair rd rs1 = .next (d, src) ∧ readCount c s = .next k ∧
        t = (s.writePair d (f (s.readPair src) k)).advance := by
  simp only [shiftPair, andThen_next, Host.Outcome.next.injEq]
  constructor
  · rintro ⟨⟨d, src⟩, h1, k, h2, rfl⟩; exact ⟨d, src, k, h1, h2, rfl⟩
  · rintro ⟨d, src, k, h1, h2, rfl⟩; exact ⟨(d, src), h1, k, h2, rfl⟩

/-- A shift of two even pairs with an admitted count completes, in the state its parts give (R70). -/
theorem shiftPair_of_even (f : DWord → Count → DWord) (rd rs1 : RegNum) (c : CountOperand) (s : State) (k : Count)
    (hd : evenReg rd = true) (hs : evenReg rs1 = true) (hk : readCount c s = .next k) :
    shiftPair f rd rs1 c s = .next (s.writePair rd (f (s.readPair rs1) k)).advance := by
  simp [shiftPair, choosePairs_eq, hd, hs, hk]

/-- Designators that are even, or whose lowest bit the policy ignores, are admitted, each as its pair (R16). -/
theorem choosePairs_of_admitted (p : OddPairPolicy) (rd rs1 : RegNum)
    (h : (evenReg rd = true ∧ evenReg rs1 = true) ∨ p = .maskLowBit) :
    choosePairs p rd rs1 = .next (rd &&& 0b11110#5, rs1 &&& 0b11110#5) := by
  rw [choosePairs_eq]
  by_cases heven : evenReg rd = true ∧ evenReg rs1 = true
  · rw [if_pos heven, mask_of_even rd heven.1, mask_of_even rs1 heven.2]
  · rw [if_neg heven, if_pos (h.resolve_left heven)]

/-- A shift with admitted designators and an admitted count completes, in the state its parts give (R16, R70). -/
theorem shiftPair_of_admitted (f : DWord → Count → DWord) (rd rs1 : RegNum) (c : CountOperand) (s : State) (k : Count)
    (h : (evenReg rd = true ∧ evenReg rs1 = true) ∨ s.policies.oddPair = .maskLowBit) (hk : readCount c s = .next k) :
    shiftPair f rd rs1 c s =
      .next (s.writePair (rd &&& 0b11110#5) (f (s.readPair (rs1 &&& 0b11110#5)) k)).advance :=
  (shiftPair_next f rd rs1 c s _).2 ⟨_, _, k, choosePairs_of_admitted _ rd rs1 h, hk, rfl⟩

end Sys2Proof.Machine
end

