-- ==== Sys2Proof/Laws/Step.lean ====
section
/-! SUPPORT. What a fetch and a step can answer, said once. -/

namespace Sys2Proof.Machine

/-- A fetch answers a word exactly when the counters are aligned, pc is a program address, and the word stands there. -/
theorem fetch_next (s : State) (w : Word) :
    fetch s = .next w ↔
      alignedAddr s.pc = true ∧ alignedAddr s.npc = true ∧ s.inProgram s.pc = true ∧ s.mem.readWord s.pc = some w := by
  unfold fetch
  cases alignedAddr s.pc <;> cases alignedAddr s.npc <;> cases s.inProgram s.pc <;> simp
  · split <;> simp
  · cases s.mem.readWord s.pc <;> simp

/-- An address is tested to be in the program exactly when it is `START_PC + 4*k` for some k below `PROGRAM_LEN` (R34). -/
theorem inProgram_iff (s : State) (a : Word) :
    s.inProgram a = true ↔ ∃ k < s.programLen, a = s.startPc + BitVec.ofNat 32 (4 * k) := by
  simp only [State.inProgram, Bool.and_eq_true, beq_iff_eq, decide_eq_true_eq]
  constructor
  · rintro ⟨haligned, hlt⟩
    refine ⟨_, hlt, ?_⟩
    rw [Nat.mul_div_cancel' (Nat.dvd_of_mod_eq_zero haligned), BitVec.ofNat_toNat, BitVec.setWidth_eq, BitVec.add_comm]
    exact (BitVec.sub_add_cancel _ _).symm
  · rintro ⟨k, hk, rfl⟩
    have hoffset : s.startPc + BitVec.ofNat 32 (4 * k) - s.startPc = BitVec.ofNat 32 (4 * k) := by
      rw [BitVec.add_comm]
      exact BitVec.add_sub_cancel _ _
    rw [hoffset, BitVec.toNat_ofNat]
    omega

/-- A fetch never faults. -/
theorem fetch_ne_fault (s : State) (f : Fault) : fetch s ≠ .fault f := by
  unfold fetch
  split
  · split
    · split <;> simp
    · split <;> simp
  · simp

/-- A step that answers next executed the instruction it decoded from the word it fetched. -/
theorem step_next (s t : State) :
    step s = .next t ↔ ∃ w i, fetch s = .next w ∧ decode s.policies.unusedBits w = .ok i ∧ exec i s = .next t := by
  simp only [step, andThen_next, decodeFetched]
  constructor
  · rintro ⟨w, hw, i, hi, ht⟩
    cases hd : decode s.policies.unusedBits w with
    | ok j => rw [hd] at hi; cases hi; exact ⟨w, _, hw, hd, ht⟩
    | error e => rw [hd] at hi; cases hi
  · rintro ⟨w, i, hw, hi, ht⟩
    exact ⟨w, hw, i, by simp [hi], ht⟩

/-- A whole word is never rejected as too short. -/
theorem decode_ne_truncated (p : UnusedBitsPolicy) (w : Word) : decode p w ≠ .error .truncated := by
  unfold decode
  split
  · simp
  · split
    · simp
    · split
      · simp
      · split
        · simp
        · split
          · simp
          · split <;> simp

/-- Rounding down gives a multiple of 4. -/
theorem alignedAddr_alignDown (a : Word) : alignedAddr (alignDown a) = true := by
  have h : (alignDown a).extractLsb' 0 2 = 0#2 := by
    ext i hi
    rcases i with _ | _ | i
    · simp [alignDown]
    · simp [alignDown]
    · omega
  have := congrArg BitVec.toNat h
  simp [BitVec.extractLsb'_toNat] at this
  simp [alignedAddr, this]

/-- A placed word is the word that the next step fetches, in every state. -/
theorem fetch_placeWord (s : State) (w : Word) : fetch (s.placeWord w) = .next w := by
  rw [fetch_next]
  unfold State.placeWord
  dsimp only
  split
  · next h => exact ⟨alignedAddr_alignDown _, alignedAddr_alignDown _, h, readWord_writeWord _ _ _⟩
  · refine ⟨alignedAddr_alignDown _, alignedAddr_alignDown _, ?_, readWord_writeWord _ _ _⟩
    simp [State.inProgram, State.withProgram]

/-- The word given to `withFetchWord` is the word that the next step fetches (log 8). -/
theorem fetch_withFetchWord (s : State) (w : Word) : fetch (s.withFetchWord 32 w.toNat) = .next w := by
  have h : BitVec.ofNat 32 (w.toNat % 2 ^ 32) = w := by
    rw [Nat.mod_eq_of_lt w.isLt]
    exact BitVec.ofNat_toNat 32 w |>.trans (BitVec.setWidth_eq w)
  rw [State.withFetchWord, h, fetch_placeWord]

end Sys2Proof.Machine
end

