-- ==== Sys2Proof/Tests/Slice0.lean ====
section
/-! SUPPORT. The model's own tests: the well-formedness checks, words written out from the spec's encodings, one-step vectors
of the spec (section 2 of `95_test_vectors.md`), and for every statement with hypotheses a state and operands that meet
them. -/

namespace Sys2Proof.Tests

open Sys2Proof.Machine

/-! ### Helpers -/

/-- The state at reset with the listed registers written and one word placed where the next step fetches. -/
def stateWith (regs : List (RegNum × Word)) (w : Nat) : State :=
  (regs.foldl (fun s r => s.writeReg r.1 r.2) State.reset).withFetchWord 32 w

/-- The same, under other policies. -/
def stateUnder (p : Policies) (regs : List (RegNum × Word)) (w : Nat) : State := { stateWith regs w with policies := p }

/-- Defaults but for `ODD_PAIR_POLICY = mask_low_bit`. -/
def masking : Policies := { defaultPolicies with oddPair := .maskLowBit }

/-- Defaults but for `ODD_PAIR_POLICY = trap_illegal_instruction`. -/
def trapping : Policies := { defaultPolicies with oddPair := .trapIllegalInstruction }

/-- Defaults but for `REG_COUNT_HIGH_POLICY = refuse`. -/
def refusingHigh : Policies := { defaultPolicies with regCountHigh := .refuse }

/-- Defaults but for `UNUSED_BITS_POLICY = ignore`. -/
def ignoringUnused : Policies := { defaultPolicies with unusedBits := .ignore }

/-- An outcome is a next state that passes a check. -/
def nextPasses (r : Host.Outcome State Fault Refusal) (check : State → Bool) : Bool :=
  match r with
  | .next t => check t
  | .fault _ => false
  | .refused _ => false

/-- One step gives a next state with this pair and the counters advanced from 0 and 4. -/
def stepGives (s : State) (n : RegNum) (v : DWord) : Bool :=
  nextPasses (step s) fun t => t.readPair n == v && t.pc == 4#32 && t.npc == 8#32

/-- An outcome is this refusal. -/
def isRefused (r : Host.Outcome State Fault Refusal) (e : Refusal) : Bool :=
  match r with
  | .refused x => x == e
  | .next _ => false
  | .fault _ => false

/-- An outcome that passes a check is a next state. -/
theorem next_of_passes {r : Host.Outcome State Fault Refusal} {check : State → Bool} (h : nextPasses r check = true) :
    ∃ t, r = .next t := by
  cases r with
  | next t => exact ⟨t, rfl⟩
  | fault f => cases h
  | refused e => cases h

/-- `x[2] = 0xF1234567`, `x[3] = 0x89ABCDEF`, `x[6] = 36`, the operands of most vectors. -/
def operands : List (RegNum × Word) := [(2#5, 0xF1234567#32), (3#5, 0x89ABCDEF#32), (6#5, 0x24#32)]

/-! ### WellFormed: a term for each check, which the check refuses -/

theorem test_wellFormed_refuses_odd_rd : (Instr.slldImm 5 2 4).wellFormed = false := by decide
theorem test_wellFormed_refuses_odd_rs1 : (Instr.sradReg 4 3 6).wellFormed = false := by decide
theorem test_wellFormed_admits_odd_rs2 : (Instr.srldReg 30 2 31).wellFormed = true := by decide

/-! ### Decoding: words written out bit by bit from R47 and R48 -/

-- 10 rd=00100 100101 rs1=00010 1 000000 1 000100
theorem test_decode_slldImm : decode .strict 0b10001001001010001010000001000100#32 = .ok (.slldImm 4 2 4) := by decide
-- 10 rd=11110 100110 rs1=11110 1 000000 1 111111
theorem test_decode_srldImm : decode .strict 0b10111101001101111010000001111111#32 = .ok (.srldImm 30 30 63) := by decide
-- 10 rd=11000 100111 rs1=10100 1 000000 1 100000
theorem test_decode_sradImm : decode .strict 0b10110001001111010010000001100000#32 = .ok (.sradImm 24 20 32) := by decide
-- 10 rd=00100 100101 rs1=00010 0 000000 1 0 00110
theorem test_decode_slldReg : decode .strict 0b10001001001010001000000001000110#32 = .ok (.slldReg 4 2 6) := by decide
-- 10 rd=11110 100110 rs1=00010 0 000000 1 0 11111
theorem test_decode_srldReg : decode .strict 0b10111101001100001000000001011111#32 = .ok (.srldReg 30 2 31) := by decide
-- 10 rd=00100 100111 rs1=00100 0 000000 1 0 00101
theorem test_decode_sradReg : decode .strict 0b10001001001110010000000001000101#32 = .ok (.sradReg 4 4 5) := by decide
-- the same words as the vectors print them (V1, V7, V6, V9, V15, V14)
theorem test_encode_words :
    encode (.slldImm 4 2 4) = 0x8928A044#32 ∧ encode (.srldImm 30 30 63) = 0xBD37A07F#32 ∧
    encode (.sradImm 24 20 32) = 0xB13D2060#32 ∧ encode (.slldReg 4 2 6) = 0x89288046#32 ∧
    encode (.srldReg 30 2 31) = 0xBD30805F#32 ∧ encode (.sradReg 4 4 5) = 0x89390045#32 := by decide
-- X1 to X4
theorem test_decode_not_in_extension :
    decode .strict 0x8928A004#32 = .error .notInExtension ∧ decode .strict 0x89288006#32 = .error .notInExtension ∧
    decode .strict 0x01000000#32 = .error .notInExtension ∧ decode .strict 0x89A0A044#32 = .error .notInExtension := by
  decide
-- X5 to X8 under the default policy
theorem test_decode_reserved :
    decode .strict 0x8928A0C4#32 = .error .reservedEncoding ∧ decode .strict 0x8928BFC4#32 = .error .reservedEncoding ∧
    decode .strict 0x89289046#32 = .error .reservedEncoding ∧ decode .strict 0x89288066#32 = .error .reservedEncoding := by
  decide
-- X5 to X8 under `ignore`
theorem test_decode_ignoring_unused :
    decode .ignore 0x8928A0C4#32 = .ok (.slldImm 4 2 4) ∧ decode .ignore 0x8928BFC4#32 = .ok (.slldImm 4 2 4) ∧
    decode .ignore 0x89289046#32 = .ok (.slldReg 4 2 6) ∧ decode .ignore 0x89288066#32 = .error .reservedEncoding := by
  decide
theorem test_decodeBytes_truncated : decodeBytes .strict [0x89#8, 0x28#8, 0xA0#8] = .error .truncated := by decide

/-! ### The shift functions: the row 0xF123456789ABCDEF of tables T1 to T3 at 0, 31, 32, 33 and 63 -/

theorem test_shl64_table :
    shl64 0xF123456789ABCDEF#64 0 = 0xF123456789ABCDEF#64 ∧ shl64 0xF123456789ABCDEF#64 31 = 0xC4D5E6F780000000#64 ∧
    shl64 0xF123456789ABCDEF#64 32 = 0x89ABCDEF00000000#64 ∧ shl64 0xF123456789ABCDEF#64 33 = 0x13579BDE00000000#64 ∧
    shl64 0xF123456789ABCDEF#64 63 = 0x8000000000000000#64 := by decide
theorem test_lshr64_table :
    lshr64 0xF123456789ABCDEF#64 0 = 0xF123456789ABCDEF#64 ∧ lshr64 0xF123456789ABCDEF#64 31 = 0x00000001E2468ACF#64 ∧
    lshr64 0xF123456789ABCDEF#64 32 = 0x00000000F1234567#64 ∧ lshr64 0xF123456789ABCDEF#64 33 = 0x000000007891A2B3#64 ∧
    lshr64 0xF123456789ABCDEF#64 63 = 0x0000000000000001#64 := by decide
theorem test_ashr64_table :
    ashr64 0xF123456789ABCDEF#64 0 = 0xF123456789ABCDEF#64 ∧ ashr64 0xF123456789ABCDEF#64 31 = 0xFFFFFFFFE2468ACF#64 ∧
    ashr64 0xF123456789ABCDEF#64 32 = 0xFFFFFFFFF1234567#64 ∧ ashr64 0xF123456789ABCDEF#64 33 = 0xFFFFFFFFF891A2B3#64 ∧
    ashr64 0xF123456789ABCDEF#64 63 = 0xFFFFFFFFFFFFFFFF#64 := by decide

/-! ### One step, from the vectors of section 2.2 -/

theorem test_slldImm_V1 : stepGives (stateWith operands 0x8928A044) 4 0x123456789ABCDEF0#64 = true := by decide
theorem test_slldImm_V18_reads_register_zero :
    stepGives (stateWith [(1#5, 0x80000000#32)] 0x85282041) 2 0x0000000100000000#64 = true := by decide
theorem test_srldImm_V2 : stepGives (stateWith operands 0x8930A044) 4 0x0F123456789ABCDE#64 = true := by decide
theorem test_srldImm_V7_in_place :
    stepGives (stateWith [(30#5, 0x80000005#32), (31#5, 0xDEADBEEF#32)] 0xBD37A07F) 30 1#64 = true := by decide
theorem test_sradImm_V3 : stepGives (stateWith operands 0x8938A044) 4 0xFF123456789ABCDE#64 = true := by decide
theorem test_sradImm_V6 :
    stepGives (stateWith [(20#5, 0x80000000#32), (21#5, 1#32)] 0xB13D2060) 24 0xFFFFFFFF80000000#64 = true := by decide
theorem test_slldReg_V13_one_register_three_times :
    stepGives (stateWith [(2#5, 3#32), (3#5, 0x80000001#32)] 0x85288042) 2 0x0000001C00000008#64 = true := by decide
theorem test_slldReg_V17_upper_count_bits_ignored :
    stepGives (stateWith [(2#5, 0x01234567#32), (3#5, 0x89ABCDEF#32), (6#5, 0xFFFFFFC4#32)] 0x89288046) 4
      0x123456789ABCDEF0#64 = true := by decide
theorem test_srldReg_V10 : stepGives (stateWith operands 0x89308046) 4 0x000000000F123456#64 = true := by decide
theorem test_srldReg_V15_count_register_overwritten :
    stepGives (stateWith (operands ++ [(31#5, 0x3F#32)]) 0xBD30805F) 30 1#64 = true := by decide
theorem test_sradReg_V11 : stepGives (stateWith operands 0x89388046) 4 0xFFFFFFFFFF123456#64 = true := by decide
theorem test_sradReg_V14_count_in_operand :
    stepGives (stateWith [(4#5, 0x80000000#32), (5#5, 8#32)] 0x89390045) 4 0xFF80000000000000#64 = true := by decide
-- V19: rd = 0 writes x[1] only
theorem test_rd_zero_V19 :
    nextPasses (step (stateWith [(1#5, 7#32), (2#5, 0#32), (3#5, 0x80000000#32)] 0x8128A041))
      (fun t => t.readReg 0 == 0#32 && t.readReg 1 == 0#32) = true := by decide

/-! ### Policies and stops, from the vectors X5, X9, X10 and V16 -/

theorem test_odd_rs1_X9 :
    isRefused (step (stateWith operands 0x8928E041)) .oddPairRegister = true ∧
    stepGives (stateUnder masking operands 0x8928E041) 4 0xE2468ACF13579BDE#64 = true ∧
    step (stateUnder trapping operands 0x8928E041) = .fault .illegalInstruction := by
  refine ⟨by decide, by decide, rfl⟩
theorem test_odd_rd_X10 :
    isRefused (step (stateWith operands 0x8B28A041)) .oddPairRegister = true ∧
    stepGives (stateUnder masking operands 0x8B28A041) 4 0xE2468ACF13579BDE#64 = true := by decide
theorem test_count_64_V16 :
    stepGives (stateWith (operands ++ [(6#5, 0x40#32)]) 0x89308046) 4 0xF123456789ABCDEF#64 = true ∧
    isRefused (step (stateUnder refusingHigh (operands ++ [(6#5, 0x40#32)]) 0x89308046)) .countRegisterHighBits = true := by
  decide
theorem test_unused_bits_X5 :
    isRefused (step (stateWith operands 0x8928A0C4)) .reservedEncoding = true ∧
    stepGives (stateUnder ignoringUnused operands 0x8928A0C4) 4 0x123456789ABCDEF0#64 = true := by decide
-- P5: the empty program ends at once
theorem test_reset_has_ended : State.reset.ended := rfl

/-! ### The host's two questions, and the assembler -/

theorem test_table_match_words :
    decodeTableWord 32 0x81282040 = some (.slldImm 0 0 0) ∧ decodeTableWord 32 0x81302040 = some (.srldImm 0 0 0) ∧
    decodeTableWord 32 0x81382040 = some (.sradImm 0 0 0) ∧ decodeTableWord 32 0x81280040 = some (.slldReg 0 0 0) ∧
    decodeTableWord 32 0x81300040 = some (.srldReg 0 0 0) ∧ decodeTableWord 32 0x81380040 = some (.sradReg 0 0 0) := by
  decide
theorem test_assembler_text :
    (disassemble (.slldImm 4 2 4)).text = "slld r2, 4, r4" ∧ (disassemble (.sradReg 4 2 6)).text = "srad r2, r6, r4" :=
  ⟨rfl, rfl⟩
theorem test_assemble :
    assemble ⟨"srld", .reg 2, .num 63, .reg 4⟩ = some (.srldImm 4 2 63) ∧
    assemble ⟨"srld", .reg 2, .num 64, .reg 4⟩ = none ∧ assemble ⟨"slld", .reg 2, .reg 32, .reg 4⟩ = none ∧
    assemble ⟨"sral", .reg 2, .num 4, .reg 4⟩ = none := by decide

/-! ### Witnesses: a state and operands that meet the hypotheses of each statement, clause by clause -/

/-- The state of V1: it is admissible and it steps. -/
def stateV1 : State := stateWith operands 0x8928A044

theorem witness_EncodeOfDecodedWord :
    decode .strict 0x8928A044#32 = .ok (.slldImm 4 2 4) ∧ decode .ignore 0x8928BFC4#32 = .ok (.slldImm 4 2 4) := by decide

/-- The fields of a word that decide the clauses of `DecodeProcedure`: op, op3, bit 6, bits 12:7, i, bit 5. -/
def decidingFields (w : Nat) : List Nat :=
  [w / 2 ^ 30, w / 2 ^ 19 % 64, w / 2 ^ 6 % 2, w / 2 ^ 7 % 64, w / 2 ^ 13 % 2, w / 2 ^ 5 % 2]

theorem witness_DecodeProcedure_outside :
    decidingFields 0x01000000 = [0, 32, 0, 0, 0, 0] ∧ decidingFields 0x89A0A044 = [2, 52, 1, 0, 1, 0] ∧
    decidingFields 0x8928A004 = [2, 37, 0, 0, 1, 0] := by decide

theorem witness_DecodeProcedure_reserved :
    decidingFields 0x8928A0C4 = [2, 37, 1, 1, 1, 0] ∧ decidingFields 0x89288066 = [2, 37, 1, 0, 0, 1] := by decide

theorem witness_DecodeProcedure_direct :
    decidingFields 0x8928A044 = [2, 37, 1, 0, 1, 0] ∧ decidingFields 0xBD37A07F = [2, 38, 1, 0, 1, 1] ∧
    decidingFields 0xB13D2060 = [2, 39, 1, 0, 1, 1] := by decide

theorem witness_DecodeProcedure_register :
    decidingFields 0x89288046 = [2, 37, 1, 0, 0, 0] ∧ decidingFields 0xBD30805F = [2, 38, 1, 0, 0, 0] ∧
    decidingFields 0x89390045 = [2, 39, 1, 0, 0, 0] := by decide

theorem witness_DecodeAgreesWithOpcodeTable :
    (0x8928A044#32 &&& maskOf .strict .slldImm = matchOf .slldImm) ∧ (0x8928A004#32).getLsbD 6 = false := by decide

theorem witness_UnusedBitsPolicyDecides :
    (0x8928A0C4#32).extractLsb' 7 6 ≠ 0#6 ∧ (0x8928A044#32).extractLsb' 7 6 = 0#6 := by decide

theorem witness_WordsThatAreNoInstructionAreRefused :
    fetch (stateWith [] 0x8928A004) = .next 0x8928A004#32 ∧ (0x8928A004#32).extractLsb' 6 1 ≠ 1#1 ∧
    fetch (stateWith [] 0x8928A0C4) = .next 0x8928A0C4#32 ∧ (0x8928A0C4#32).extractLsb' 7 6 ≠ 0#6 ∧
    (stateWith [] 0x8928A0C4).policies.unusedBits = .strict ∧
    fetch (stateWith [] 0x89288066) = .next 0x89288066#32 ∧ (0x89288066#32).extractLsb' 13 1 = 0#1 ∧
    (0x89288066#32).extractLsb' 5 1 = 1#1 := by
  refine ⟨fetch_placeWord _ _, by decide, fetch_placeWord _ _, by decide, by decide, fetch_placeWord _ _, by decide, by decide⟩

theorem witness_EncodingMacrosGiveMatchWords : (0x3F#32).toNat < 64 ∧ (1#32).toNat < 2 := by decide

theorem witness_AssemblyOperandRanges :
    (assemble ⟨"slld", .reg 31, .num 63, .reg 31⟩).isSome = true ∧
    (assemble ⟨"slld", .reg 31, .reg 31, .reg 31⟩).isSome = true ∧
    ¬("sll" = "slld" ∨ "sll" = "srld" ∨ "sll" = "srad") := by decide

/-- Both sides of the case split of each shift law, at the bit where they meet. -/
theorem witness_ShiftLaws :
    ((4#6).toNat ≤ 4 ∧ ¬(4#6).toNat ≤ 3 ∧ 3 < 64) ∧ (59 + (4#6).toNat ≤ 63 ∧ ¬60 + (4#6).toNat ≤ 63 ∧ 60 < 64) := by
  decide

theorem witness_PairReadLaw_and_PairWriteLaw :
    ((30#5).toNat % 2 = 0 ∧ (31#5).toNat = (30#5).toNat + 1) ∧ ((0#5).toNat % 2 = 0 ∧ (1#5).toNat = (0#5).toNat + 1) := by
  decide

theorem witness_ImmShiftsThePair : evenReg 30#5 = true ∧ evenReg 0#5 = true ∧ evenReg 31#5 = false := by decide

theorem witness_RegShiftsThePair :
    evenReg 30#5 = true ∧ evenReg 0#5 = true ∧ stateV1.policies.regCountHigh = .ignore ∧
    ((stateUnder refusingHigh [(6#5, 63#32)] 0).readReg 6).toNat < 64 ∧
    (stateUnder refusingHigh [(6#5, 63#32)] 0).policies.regCountHigh = .refuse := by decide

theorem witness_OddPairPolicyDecides :
    ((Instr.slldImm 31 2 4).rd.toNat % 2 = 1 ∧ (Instr.slldReg 4 1 6).rs1.toNat % 2 = 1) ∧
    stateV1.policies.oddPair = .refuse ∧ (stateUnder masking [] 0).policies.oddPair = .maskLowBit ∧
    (stateUnder trapping [] 0).policies.oddPair = .trapIllegalInstruction := by decide

theorem witness_CountComesFromTheLowSixBits :
    stateV1.policies.regCountHigh = .ignore ∧ ((stateWith [(6#5, 63#32)] 0).readReg 6).toNat < 64 ∧
    ((stateUnder refusingHigh [(6#5, 64#32)] 0).policies.regCountHigh = .refuse ∧
      64 ≤ ((stateUnder refusingHigh [(6#5, 64#32)] 0).readReg 6).toNat) ∧
    ((stateWith [(6#5, 64#32)] 0).readReg 6).toNat = 64 := by decide

/-- `slld r2, r4, r4` and `slld r2, r3, r4` (the count in the destination or in the operand), `srad r3, r31, r31` with the
lowest bits masked, a direct form in place, and the rule's example. -/
theorem witness_OperandsAreReadBeforeTheWrite :
    stateV1.completes (registerForm .slld 4 2 4) ∧ stateV1.completes (registerForm .slld 4 2 3) ∧
    (stateUnder masking [] 0).completes (registerForm .srad 31 3 31) ∧ stateV1.completes (directForm .srld 30 30 63) ∧
    (30#5).toNat % 2 = 0 ∧ stateV1.countAdmitted (.slldReg 2 2 2) := by
  refine ⟨⟨.inl ⟨rfl, rfl⟩, ?_⟩, ⟨.inl ⟨rfl, rfl⟩, ?_⟩, ⟨.inr rfl, ?_⟩, ⟨.inl ⟨rfl, rfl⟩, ?_⟩, by decide, ?_⟩ <;>
    exact fun _ _ => .inl rfl

theorem witness_exec_answers_next :
    (∃ t, exec (.slldImm 4 2 4) stateV1 = .next t) ∧ (∃ t, exec (.slldReg 5 2 6) (stateUnder masking [] 0) = .next t) :=
  ⟨next_of_passes (check := fun _ => true) (by decide), next_of_passes (check := fun _ => true) (by decide)⟩

/-- Two states that agree on the sources of `slld r2, r6, r4` and on nothing else that matters. -/
theorem witness_ResultDependsOnlyOnItsSources :
    stateV1.policies = (stateWith (operands ++ [(4#5, 9#32), (5#5, 9#32)]) 0).policies ∧
    (∀ r ∈ [2#5, 3#5, 6#5], stateV1.readReg r = (stateWith (operands ++ [(4#5, 9#32), (5#5, 9#32)]) 0).readReg r) ∧
    stateV1.readReg 4 ≠ (stateWith (operands ++ [(4#5, 9#32), (5#5, 9#32)]) 0).readReg 4 ∧
    (∃ t, exec (.slldReg 4 2 6) stateV1 = .next t) :=
  ⟨by decide, by decide, by decide, next_of_passes (check := fun _ => true) (by decide)⟩

theorem witness_NoShiftRaisesAnException :
    (Instr.sradReg 4 2 31).wellFormed = true ∧ exec (.sradReg 5 2 31) (stateUnder trapping [] 0) = .fault .illegalInstruction :=
  ⟨by decide, rfl⟩

theorem witness_CountersWrapAtTheTop :
    let s : State := { stateV1 with pc := 0xFFFFFFFC#32, npc := 0#32 }
    s.completes (.slldImm 4 2 4) ∧ s.pc = 0xFFFFFFFC#32 ∧ s.npc = 0#32 :=
  ⟨⟨.inl ⟨rfl, rfl⟩, fun _ h => by cases h⟩, rfl, rfl⟩

theorem witness_StepRunsTheDecodedInstruction :
    stateV1.pc.toNat % 4 = 0 ∧ stateV1.npc.toNat % 4 = 0 ∧ 0 < stateV1.programLen ∧
    stateV1.pc = stateV1.startPc + BitVec.ofNat 32 (4 * 0) ∧ stateV1.mem.readByte stateV1.pc.toNat = some 0x89#8 ∧
    stateV1.mem.readByte (stateV1.pc.toNat + 1) = some 0x28#8 ∧
    stateV1.mem.readByte (stateV1.pc.toNat + 2) = some 0xA0#8 ∧
    stateV1.mem.readByte (stateV1.pc.toNat + 3) = some 0x44#8 ∧
    decodeBytes stateV1.policies.unusedBits [0x89#8, 0x28#8, 0xA0#8, 0x44#8] = .ok (.slldImm 4 2 4, []) := by decide

theorem witness_MisalignedFetchIsRefused :
    ({ stateV1 with pc := 0x40000002#32 } : State).pc.extractLsb' 0 2 ≠ 0#2 := by decide

/-- A program of two words at the top of the address space: word 1 stands at address 0. -/
theorem witness_ProgramStandsInTheAddressSpace :
    let m := (State.reset.withProgram 0xFFFFFFFC#32 [0x8928A044#32, 0x8930A044#32]).mem
    [0x8928A044#32, 0x8930A044#32].length ≤ 2 ^ 30 ∧ m.readByte 0xFFFFFFFF = some 0x44#8 ∧ m.readByte 0 = some 0x89#8 ∧
    4 * 2 ≤ ((4#32) - 0xFFFFFFFC#32).toNat ∧ m.readByte 4 = none ∧ Memory.wf m := by decide

theorem witness_FetchReturnsTheProgramWord :
    [0x8928A044#32].length < 2 ^ 30 ∧ (0xFFFFFFFC#32).toNat % 4 = 0 ∧ (0#32).toNat % 4 = 0 ∧
    ((4#32).toNat % 4 = 0 ∧ 4 * [0x8928A044#32].length < ((4#32) - 0xFFFFFFFC#32).toNat) := by decide

theorem witness_StepCompletesExactlyWhen : stateV1.safeStep ∧ ¬State.reset.safeStep :=
  ⟨next_of_passes (check := fun _ => true) (by decide), fun ⟨_, h⟩ => by cases h⟩

theorem witness_FirstConditionDecides :
    (({ stateV1 with pc := 2#32 } : State).pc.toNat % 4 ≠ 0 ∧ ({ stateV1 with npc := 2#32 } : State).npc.toNat % 4 ≠ 0) ∧
    (fetch (stateWith [] 0x8928A004) = .next 0x8928A004#32 ∧ decode .strict 0x8928A004#32 = .error .notInExtension) ∧
    (fetch (stateWith [] 0x8928E041) = .next 0x8928E041#32 ∧ decode .strict 0x8928E041#32 = .ok (.slldImm 4 3 1) ∧
      (Instr.slldImm 4 3 1).wellFormed = false) ∧
    ((stateUnder refusingHigh [(6#5, 64#32)] 0x89288046).pairsAdmitted (.slldReg 4 2 6) ∧
      ¬(stateUnder refusingHigh [(6#5, 64#32)] 0x89288046).countAdmitted (.slldReg 4 2 6)) := by
  refine ⟨⟨by decide, by decide⟩, ⟨fetch_placeWord _ _, by decide⟩, ⟨fetch_placeWord _ _, by decide, by decide⟩, .inl ⟨rfl, rfl⟩, ?_⟩
  intro h
  rcases h 6#5 rfl with h | h <;> revert h <;> decide

/-- The clauses on an aligned pc: outside a program (its START_PC not aligned), at its end, and at a program address whose
word is in the memory or is not. -/
theorem witness_FirstConditionDecides_program :
    let outside : State := { stateV1 with pc := 8#32, startPc := 2#32 }
    let ended : State := { stateV1 with pc := 4#32 }
    let absent : State := { stateV1 with mem := [] }
    (outside.pc.toNat % 4 = 0 ∧ outside.npc.toNat % 4 = 0 ∧
      ∀ k ≤ outside.programLen, outside.pc ≠ outside.startPc + BitVec.ofNat 32 (4 * k)) ∧
    ((∀ k < ended.programLen, ended.pc ≠ ended.startPc + BitVec.ofNat 32 (4 * k)) ∧
      ended.pc = ended.startPc + BitVec.ofNat 32 (4 * ended.programLen)) ∧
    ((∃ k < absent.programLen, absent.pc = absent.startPc + BitVec.ofNat 32 (4 * k)) ∧
      absent.mem.readWord absent.pc = none ∧ stateV1.mem.readWord stateV1.pc = some 0x8928A044#32) := by decide

theorem witness_StepFaultsOnlyOnOddPairUnderTrapPolicy :
    step (stateUnder trapping operands 0x8928E041) = .fault .illegalInstruction := rfl

theorem witness_StartStateIsAdmissible :
    (0x40000000#32).toNat % 4 = 0 ∧ [0x8928A044#32].length < 2 ^ 30 ∧ (31 : Nat) < 32 := by decide

theorem witness_StepKeepsAdmissible : stateV1.admissible ∧ ∃ t, step stateV1 = .next t :=
  ⟨by decide, next_of_passes (check := fun _ => true) (by decide)⟩

/-- The state of V1 with pc beyond the address after the program. -/
def outsideV1 : State := { stateV1 with pc := 8#32, npc := 12#32 }

theorem witness_AdmissibleStateFetches_and_RunEndsAfterTheLastWord :
    (stateV1.admissible ∧ ∃ k < stateV1.programLen, stateV1.pc = stateV1.startPc + BitVec.ofNat 32 (4 * k)) ∧
    (outsideV1.admissible ∧ ∀ k ≤ outsideV1.programLen, outsideV1.pc ≠ outsideV1.startPc + BitVec.ofNat 32 (4 * k)) ∧
    (State.reset.admissible ∧ State.reset.ended) := by
  refine ⟨⟨by decide, 0, by decide, by decide⟩, ⟨by decide, by decide⟩, by decide, rfl⟩

end Sys2Proof.Tests
end

/-! SUPPORT. Proofs about registers, pairs and operands (R11 to R16, R22, R24): what `exec` answers, said once for all six
instructions, and the statements of the family `10_state`. -/

namespace Sys2Proof.Machine

/-! ### Register 0 and the value of a pair -/

@[simp] theorem readReg_zero (s : State) : s.readReg 0#5 = 0#32 := rfl

@[simp] theorem writeReg_zero (s : State) (v : Word) : s.writeReg 0#5 v = s := rfl

/-- The value of two registers as a number (R14). -/
theorem toNat_pairOfWords (hi lo : Word) : (pairOfWords hi lo).toNat = hi.toNat * 2 ^ 32 + lo.toNat := by
  rw [pairOfWords, BitVec.toNat_append, ← Nat.shiftLeft_add_eq_or_of_lt lo.isLt, Nat.shiftLeft_eq]

/-- Two registers of which the upper one reads zero (R12, R14). -/
theorem pairOfWords_zero (lo : Word) : pairOfWords 0#32 lo = lo.setWidth 64 := by
  apply BitVec.eq_of_toNat_eq
  rw [toNat_pairOfWords, BitVec.toNat_setWidth_of_le (by decide)]
  simp

/-- The register number after `n`, where there is one. -/
theorem eq_add_one_of_toNat {n m : RegNum} (h : m.toNat = n.toNat + 1) : m = n + 1#5 := by bv_omega

/-! ### Designators -/

theorem evenReg_iff (n : RegNum) : evenReg n = true ↔ n.toNat % 2 = 0 := by simp [evenReg]

/-- An instruction with an odd rd or rs1 is admitted by `mask_low_bit` alone (R16). -/
theorem pairsAdmitted_iff_of_odd (i : Instr) (s : State) (h : i.rd.toNat % 2 = 1 ∨ i.rs1.toNat % 2 = 1) :
    s.pairsAdmitted i ↔ s.policies.oddPair = .maskLowBit := by
  simp only [State.pairsAdmitted, evenReg_iff]
  exact or_iff_right (by omega)

/-- Designators that are not admitted stop the instruction, as the policy says (R16). -/
theorem choosePairs_of_not_admitted (p : OddPairPolicy) (rd rs1 : RegNum)
    (h : ¬((evenReg rd = true ∧ evenReg rs1 = true) ∨ p = .maskLowBit)) :
    choosePairs p rd rs1 = if p = .refuse then .refused .oddPairRegister else .fault .illegalInstruction := by
  obtain ⟨hodd, hmask⟩ := not_or.mp h
  rw [choosePairs_eq, if_neg hodd, if_neg hmask]

/-! ### The count -/

/-- Bits 31:6 of a register are zero exactly when it holds a number below 64 (R80). -/
theorem extractLsb'_6_26_eq_zero_iff (v : Word) : v.extractLsb' 6 26 = 0#26 ↔ v.toNat < 64 := by
  rw [← BitVec.toNat_inj, BitVec.extractLsb'_toNat, Nat.shiftRight_eq_div_pow]
  have := v.isLt
  simp only [BitVec.toNat_ofNat]
  omega

/-- The two answers of a count register (R80). -/
theorem countOfWord_eq (p : RegCountHighPolicy) (v : Word) :
    countOfWord p v =
      if p = .ignore ∨ v.toNat < 64 then .next (v.extractLsb' 0 6) else .refused .countRegisterHighBits := by
  unfold countOfWord
  simp only [ne_eq, extractLsb'_6_26_eq_zero_iff]
  cases p with
  | ignore => simp
  | refuse => by_cases h : v.toNat < 64 <;> simp [h]

/-! ### The six instructions in one shape -/

/-- The operation of an instruction (R2). -/
def shiftOpOf : Instr → ShiftOp
  | .slldImm _ _ _ | .slldReg _ _ _ => .slld
  | .srldImm _ _ _ | .srldReg _ _ _ => .srld
  | .sradImm _ _ _ | .sradReg _ _ _ => .srad

/-- The count operand of an instruction (R52, R53). -/
def countOperandOf : Instr → CountOperand
  | .slldImm _ _ count | .srldImm _ _ count | .sradImm _ _ count => .direct count
  | .slldReg _ _ rs2 | .srldReg _ _ rs2 | .sradReg _ _ rs2 => .register rs2

/-- The count that an instruction shifts by in a state, where the policy admits it (R52, R80). -/
def countValue (i : Instr) (s : State) : Count :=
  match countOperandOf i with
  | .direct count => count
  | .register rs2 => (s.readReg rs2).extractLsb' 0 6

/-- The 64-bit value that an instruction computes from the registers of a state (R70 part 5). -/
def shiftResult (i : Instr) (s : State) : DWord :=
  shiftFunction (shiftOpOf i) (s.readPair (pairBase i.rs1)) (countValue i s)

/-- The state after an instruction that has its effect (R70 parts 6 and 7). -/
def afterShift (i : Instr) (s : State) : State := (s.writePair (pairBase i.rd) (shiftResult i s)).advance

/-- Every instruction is the shared part of the six meanings at its operation and its operands (R70). -/
theorem exec_eq_shiftPair (i : Instr) (s : State) :
    exec i s = shiftPair (shiftFunction (shiftOpOf i)) i.rd i.rs1 (countOperandOf i) s := by
  cases i <;> rfl

/-- The count register of an instruction is its count operand (R48). -/
theorem countReg?_eq_some_iff (i : Instr) (r : RegNum) : i.countReg? = some r ↔ countOperandOf i = .register r := by
  cases i <;> simp [Instr.countReg?, countOperandOf]

/-- The two answers of reading the count operand of an instruction (R80). -/
theorem readCount_countOperandOf (i : Instr) (s : State) :
    readCount (countOperandOf i) s =
      if s.countAdmitted i then .next (countValue i s) else .refused .countRegisterHighBits := by
  simp only [State.countAdmitted, countReg?_eq_some_iff, countValue]
  cases countOperandOf i with
  | direct count => simp [readCount]
  | register rs2 => simp [readCount, countOfWord_eq]

/-- Everything an instruction can answer: its effect, or the first of R16's and R80's stops that applies (R97). -/
theorem exec_eq (i : Instr) (s : State) :
    exec i s =
      if s.pairsAdmitted i then
        if s.countAdmitted i then .next (afterShift i s) else .refused .countRegisterHighBits
      else if s.policies.oddPair = .refuse then .refused .oddPairRegister
      else .fault .illegalInstruction := by
  rw [exec_eq_shiftPair, shiftPair, readCount_countOperandOf]
  by_cases hpairs : s.pairsAdmitted i
  · rw [if_pos hpairs, choosePairs_of_admitted _ _ _ hpairs, andThen_of_next]
    split <;> rfl
  · rw [if_neg hpairs, choosePairs_of_not_admitted _ _ _ hpairs]
    split <;> rfl

/-- An instruction answers a next state exactly when it has its effect there, and then that effect is the state (R93). -/
theorem exec_next_iff (i : Instr) (s t : State) : exec i s = .next t ↔ s.completes i ∧ t = afterShift i s := by
  rw [exec_eq, State.completes]
  by_cases hpairs : s.pairsAdmitted i
  · by_cases hcount : s.countAdmitted i
    · rw [if_pos hpairs, if_pos hcount, Host.Outcome.next.injEq, and_iff_right ⟨hpairs, hcount⟩, eq_comm]
    · rw [if_pos hpairs, if_neg hcount]
      exact iff_of_false nofun fun h => hcount h.1.2
  · rw [if_neg hpairs]
    refine iff_of_false ?_ fun h => hpairs h.1.1
    split <;> exact nofun

theorem exec_of_completes (i : Instr) (s : State) (h : s.completes i) : exec i s = .next (afterShift i s) :=
  (exec_next_iff i s _).2 ⟨h, rfl⟩

/-! ### The two versions of an operation -/

@[simp] theorem rd_directForm (op : ShiftOp) (rd rs1 : RegNum) (count : Count) : (directForm op rd rs1 count).rd = rd := by
  cases op <;> rfl
@[simp] theorem rd_registerForm (op : ShiftOp) (rd rs1 rs2 : RegNum) : (registerForm op rd rs1 rs2).rd = rd := by
  cases op <;> rfl
@[simp] theorem rs1_registerForm (op : ShiftOp) (rd rs1 rs2 : RegNum) : (registerForm op rd rs1 rs2).rs1 = rs1 := by
  cases op <;> rfl

@[simp] theorem shiftResult_directForm (op : ShiftOp) (rd rs1 : RegNum) (count : Count) (s : State) :
    shiftResult (directForm op rd rs1 count) s = shiftFunction op (s.readPair (pairBase rs1)) count := by
  cases op <;> rfl
@[simp] theorem shiftResult_registerForm (op : ShiftOp) (rd rs1 rs2 : RegNum) (s : State) :
    shiftResult (registerForm op rd rs1 rs2) s =
      shiftFunction op (s.readPair (pairBase rs1)) ((s.readReg rs2).extractLsb' 0 6) := by
  cases op <;> rfl

/-! ### An instruction with the lowest bit of its designators cleared (R16) -/

@[simp] theorem rd_withEvenPairs (i : Instr) : (withEvenPairs i).rd = pairBase i.rd := by cases i <;> rfl
@[simp] theorem rs1_withEvenPairs (i : Instr) : (withEvenPairs i).rs1 = pairBase i.rs1 := by cases i <;> rfl
@[simp] theorem shiftOpOf_withEvenPairs (i : Instr) : shiftOpOf (withEvenPairs i) = shiftOpOf i := by cases i <;> rfl
@[simp] theorem countOperandOf_withEvenPairs (i : Instr) : countOperandOf (withEvenPairs i) = countOperandOf i := by
  cases i <;> rfl

/-- Clearing the lowest bit of the designators changes no instruction whose designators are admitted (R16). -/
theorem exec_withEvenPairs (i : Instr) (s : State) (h : s.pairsAdmitted i) : exec (withEvenPairs i) s = exec i s := by
  have hchoice : choosePairs s.policies.oddPair (pairBase i.rd) (pairBase i.rs1) =
      choosePairs s.policies.oddPair i.rd i.rs1 := by
    rw [choosePairs_of_admitted _ _ _ h, choosePairs_eq, if_pos ⟨evenReg_mask _, evenReg_mask _⟩]
  simp only [exec_eq_shiftPair, shiftPair, rd_withEvenPairs, rs1_withEvenPairs, shiftOpOf_withEvenPairs,
    countOperandOf_withEvenPairs, hchoice]

/-! ### What the write of a pair leaves in the state -/

/-- What any register reads after the write of an even pair (R12, R15). -/
theorem readReg_writePair (s : State) (n k : RegNum) (v : DWord) (hn : evenReg n = true) :
    (s.writePair n v).readReg k =
      if k = 0#5 then 0#32 else if k = n then highWord v else if k = n + 1#5 then lowWord v else s.readReg k :=
  readReg_writePair_advance s n k v hn

/-- A register outside an even pair keeps its value when the pair is written (R15). -/
theorem readReg_writePair_of_ne (s : State) (n k : RegNum) (v : DWord) (hn : evenReg n = true) (h0 : k ≠ n)
    (h1 : k ≠ n + 1#5) : (s.writePair n v).readReg k = s.readReg k := by
  rw [readReg_writePair s n k v hn, if_neg h0, if_neg h1]
  split
  · next hk => rw [hk, readReg_zero]
  · rfl

/-- The write of a pair changes no memory byte and no parameter (R15). -/
theorem sameRun_writePair (s : State) (n : RegNum) (v : DWord) : s.sameRun (s.writePair n v) := by
  simp [State.sameRun]

/-- An instruction that completes has R15's and R17's effect on the pair of rd, with the result of the old registers. -/
theorem shiftEffect_afterShift (i : Instr) (s : State) :
    s.shiftEffect (afterShift i s) (pairBase i.rd) (shiftResult i s) :=
  ⟨fun k => readReg_writePair_advance s _ k _ (evenReg_mask _), writePair_npc s _ _,
    congrArg (· + 4#32) (writePair_npc s _ _), sameRun_writePair s _ _⟩

/-- An instruction whose designators and count are admitted answers a next state, changed by its effect alone (R22, R93). -/
theorem exec_shiftEffect (i : Instr) (s : State) (h : s.completes i) :
    ∃ t, exec i s = .next t ∧ s.shiftEffect t (pairBase i.rd) (shiftResult i s) :=
  ⟨_, exec_of_completes i s h, shiftEffect_afterShift i s⟩

/-! ### Two states that agree on the sources of an instruction (R22) -/

/-- The result of an instruction depends on its source pair and its count register alone. -/
theorem shiftResult_congr (i : Instr) (s u : State)
    (hhigh : s.readReg (pairBase i.rs1) = u.readReg (pairBase i.rs1))
    (hlow : s.readReg (pairBase i.rs1 + 1#5) = u.readReg (pairBase i.rs1 + 1#5))
    (hcount : ∀ r, i.countReg? = some r → s.readReg r = u.readReg r) : shiftResult i s = shiftResult i u := by
  have hvalue : countValue i s = countValue i u := by
    simp only [countReg?_eq_some_iff] at hcount
    unfold countValue
    split
    · rfl
    · next r hr => rw [hcount r hr]
  rw [shiftResult, shiftResult, State.readPair, State.readPair, hhigh, hlow, hvalue]

/-- Whether an instruction completes depends on the policies and its count register alone (R16, R80). -/
theorem completes_congr (i : Instr) (s u : State) (hpol : s.policies = u.policies)
    (hcount : ∀ r, i.countReg? = some r → s.readReg r = u.readReg r) (h : s.completes i) : u.completes i := by
  obtain ⟨hpairs, hadmitted⟩ := h
  refine ⟨by rwa [State.pairsAdmitted, ← hpol], fun r hr => ?_⟩
  rw [← hpol, ← hcount r hr]
  exact hadmitted r hr

/-- What any register of the pair of rd reads after an instruction depends on the result alone (R15). -/
theorem readReg_afterShift_congr (i : Instr) (s u : State) (h : shiftResult i s = shiftResult i u) (k : RegNum)
    (hk : k = pairBase i.rd ∨ k = pairBase i.rd + 1#5) : (afterShift i u).readReg k = (afterShift i s).readReg k := by
  rw [(shiftEffect_afterShift i u).1, (shiftEffect_afterShift i s).1, h]
  rcases hk with rfl | rfl <;> simp

/-! ### The statements -/

/-- Settles O18: both facts are R12's hard-wired case of `readReg` and `writeReg`. -/
theorem registerZeroIsHardwired : Obligations.RegisterZeroIsHardwired :=
  fun s v => ⟨readReg_zero s, writeReg_zero s v⟩

/-- Settles O19: `toNat_pairOfWords` at the two registers, and at n = 0 an upper half that reads zero. -/
theorem pairReadLaw : Obligations.PairReadLaw := by
  intro s
  refine ⟨fun n m _ hm => ?_, ?_⟩
  · rw [eq_add_one_of_toNat hm]
    exact toNat_pairOfWords _ _
  · exact pairOfWords_zero _

/-- Settles O20: what each register reads after the write is `readReg_writePair`; the other fields are the frame of
`writePair`. -/
theorem pairWriteLaw : Obligations.PairWriteLaw := by
  intro s n m v hn hm
  have heven := (evenReg_iff n).2 hn
  have hm0 : m ≠ 0#5 := by bv_omega
  have hmn : m ≠ n := by bv_omega
  obtain rfl := eq_add_one_of_toNat hm
  refine ⟨?_, ?_, fun k hk hk' => readReg_writePair_of_ne s n k v heven hk hk', writePair_pc s n v, writePair_npc s n v,
    sameRun_writePair s n v⟩
  · rw [readReg_writePair s n n v heven, if_pos rfl, highWord]
  · rw [readReg_writePair s n _ v heven, if_neg hm0, if_neg hmn, if_pos rfl, lowWord]

/-- Settles O27: with an odd designator `exec_eq` leaves the policy's clause alone; with even ones it leaves the effect and
the refusal of the count. -/
theorem oddPairPolicyDecides : Obligations.OddPairPolicyDecides := by
  intro i s
  refine ⟨fun hodd => ?_, fun op rd rs1 rs2 hrd hrs1 => ?_⟩
  · have hadmitted := pairsAdmitted_iff_of_odd i s hodd
    refine ⟨fun hp => ?_, fun hp => (exec_withEvenPairs i s (hadmitted.2 hp)).symm, fun hp => ?_⟩
    · rw [exec_eq, if_neg (by simp [hadmitted, hp]), if_pos hp]
    · rw [exec_eq, if_neg (by simp [hadmitted, hp]), if_neg (by simp [hp])]
  · have hadmitted : s.pairsAdmitted (registerForm op rd rs1 rs2) :=
      .inl (by simp [evenReg_iff, hrd, hrs1])
    rw [exec_eq, if_pos hadmitted]
    split <;> exact ⟨nofun, nofun⟩

/-- Settles O29: the state after a form that completes is `afterShift`, whose result is computed from the old registers. -/
theorem operandsAreReadBeforeTheWrite : Obligations.OperandsAreReadBeforeTheWrite := by
  intro op rd rs1 rs2 count s
  refine ⟨fun h => ?_, fun h => ?_, fun n hn => mask_of_even n ((evenReg_iff n).2 hn), fun h => ?_⟩
  · simpa only [rd_registerForm, shiftResult_registerForm] using exec_shiftEffect _ s h
  · simpa only [rd_directForm, shiftResult_directForm] using exec_shiftEffect _ s h
  · exact exec_shiftEffect (.slldReg 2 2 2) s ⟨.inl ⟨rfl, rfl⟩, h⟩

/-- Settles O31: two states that agree on the sources admit the same instruction and give it the same result. -/
theorem resultDependsOnlyOnItsSources : Obligations.ResultDependsOnlyOnItsSources := by
  intro i s u t hpol hhigh hlow hcount ht
  obtain ⟨hs, rfl⟩ := (exec_next_iff i s t).1 ht
  have hresult : shiftResult i s = shiftResult i u := shiftResult_congr i s u hhigh hlow hcount
  exact ⟨_, exec_of_completes i u (completes_congr i s u hpol hcount hs),
    readReg_afterShift_congr i s u hresult _ (.inl rfl), readReg_afterShift_congr i s u hresult _ (.inr rfl),
    fun k h0 h1 => ⟨readReg_writePair_of_ne u _ k _ (evenReg_mask _) h0 h1,
      readReg_writePair_of_ne s _ k _ (evenReg_mask _) h0 h1⟩⟩

end Sys2Proof.Machine

/-! SUPPORT. Proofs about the program in the address space and its fetch (R31, R34 to R36): what every byte reads after a
program is placed, said once, and the statements of the family `20_memory`. -/

namespace Sys2Proof.Machine

/-! ### The bytes of words placed in memory -/

/-- A written word holds the four addresses from its own on, modulo 2^32, and changes no other (R35). -/
theorem readByte_writeWord_offset (m : Memory) (a b w : Word) :
    (m.writeWord a w).readByte b.toNat =
      if (b - a).toNat < 4 then some (byteOfWord w (b - a).toNat) else m.readByte b.toNat := by
  obtain ⟨d, rfl⟩ : ∃ d, b = a + d := ⟨b - a, by rw [BitVec.add_comm, BitVec.sub_add_cancel]⟩
  have hd : a + d - a = d := by rw [BitVec.add_comm, BitVec.add_sub_cancel]
  have hself : a.toNat = (a + d).toNat ↔ 0#32 = d := by bv_omega
  simp only [readByte_writeWord, hd, BitVec.toNat_inj, BitVec.add_right_inj, hself]
  by_cases hlt : d.toNat < 4
  · obtain rfl | rfl | rfl | rfl : d = 0#32 ∨ d = 1#32 ∨ d = 2#32 ∨ d = 3#32 := by bv_omega
    all_goals rfl
  · have hne : ∀ j : Word, j.toNat < 4 → j ≠ d := fun j hj h => hlt (h ▸ hj)
    simp [hne, hlt]

/-- What any byte reads after words are written from `a` on: the byte of the word that its offset from `a` falls in, or what
it read before where the offset is behind the last word (R31, R35). -/
theorem readByte_writeWords (ws : List Word) (m : Memory) (a b : Word) (hlen : ws.length ≤ 2 ^ 30) :
    (m.writeWords a ws).readByte b.toNat =
      (ws[(b - a).toNat / 4]?.map (byteOfWord · ((b - a).toNat % 4))).or (m.readByte b.toNat) := by
  induction ws generalizing m a with
  | nil => rfl
  | cons w ws ih =>
    rw [List.length_cons] at hlen
    rw [Memory.writeWords, ih _ _ (by omega), readByte_writeWord_offset]
    by_cases hfirst : (b - a).toNat < 4
    · have hlast : ws.length ≤ (b - (a + 4#32)).toNat / 4 := by bv_omega
      rw [if_pos hfirst, List.getElem?_eq_none hlast, Nat.div_eq_of_lt hfirst, Nat.mod_eq_of_lt hfirst]
      rfl
    · have hoffset : (b - a).toNat = (b - (a + 4#32)).toNat + 4 := by bv_omega
      rw [if_neg hfirst, hoffset, Nat.add_div_right _ (by decide), Nat.add_mod_right]
      rfl

/-- Byte j of word k of a placed program stands at `start + 4*k + j`, modulo 2^32 (R31, R35). -/
theorem readByte_withProgram (s : State) (start : Word) (ws : List Word) (hlen : ws.length ≤ 2 ^ 30) (k j : Nat)
    (hk : k < ws.length) (hj : j < 4) :
    (s.withProgram start ws).mem.readByte (start + BitVec.ofNat 32 (4 * k + j)).toNat = some (byteOfWord ws[k] j) := by
  have hoffset : (start + BitVec.ofNat 32 (4 * k + j) - start).toNat = 4 * k + j := by bv_omega
  have hword : (4 * k + j) / 4 = k := by omega
  have hbyte : (4 * k + j) % 4 = j := by omega
  rw [State.withProgram, readByte_writeWords ws _ _ _ hlen, hoffset, hword, hbyte, List.getElem?_eq_getElem hk]
  rfl

/-- An address behind the last word of a placed program holds nothing (R31). -/
theorem readByte_withProgram_outside (s : State) (start a : Word) (ws : List Word) (hlen : ws.length ≤ 2 ^ 30)
    (ha : 4 * ws.length ≤ (a - start).toNat) : (s.withProgram start ws).mem.readByte a.toNat = none := by
  have hnone : ws.length ≤ (a - start).toNat / 4 := by omega
  rw [State.withProgram, readByte_writeWords ws _ _ _ hlen, List.getElem?_eq_none hnone]
  rfl

/-! ### Where a fetch is admitted, and what a step leaves of the program -/

/-- The offset from `START_PC` of a program address is below the program's size in bytes (R34). -/
theorem offset_lt_of_inProgram (s : State) (a : Word) (h : s.inProgram a = true) :
    (a - s.startPc).toNat < 4 * s.programLen := by
  simp only [State.inProgram, Bool.and_eq_true, decide_eq_true_eq] at h
  omega

/-- No word is fetched from behind the program (R34). -/
theorem fetch_ne_next_of_offset (s : State) (h : 4 * s.programLen ≤ (s.pc - s.startPc).toNat) (w : Word) :
    fetch s ≠ .next w := by
  intro hw
  obtain ⟨-, -, hin, -⟩ := (fetch_next s w).1 hw
  exact absurd (offset_lt_of_inProgram s s.pc hin) (by omega)

/-- An instruction that completes changes no byte of memory and no parameter of the run (R32, R33). -/
theorem exec_sameRun (i : Instr) (s t : State) (h : exec i s = .next t) : s.sameRun t := by
  obtain ⟨-, rfl⟩ := (exec_next_iff i s t).1 h
  exact sameRun_writePair s _ _

/-- A step that completes changes no byte of memory and no parameter of the run (R31, R32). -/
theorem step_sameRun (s t : State) (h : step s = .next t) : s.sameRun t := by
  obtain ⟨_, i, -, -, hexec⟩ := (step_next s t).1 h
  exact exec_sameRun i s t hexec

/-! ### Alignment -/

/-- An instruction address is aligned exactly when its two lowest bits are zero (R36). -/
theorem alignedAddr_iff_extractLsb' (a : Word) : alignedAddr a = true ↔ a.extractLsb' 0 2 = 0#2 := by
  rw [← BitVec.toNat_inj, BitVec.extractLsb'_toNat, alignedAddr, beq_iff_eq]
  rfl

/-- A counter that is not aligned stops the step before anything else is tested (R17, R36, R97). -/
theorem step_of_misaligned (s : State) (h : ¬(alignedAddr s.pc = true ∧ alignedAddr s.npc = true)) :
    step s = .refused .misalignedFetch := by
  rw [step, fetch, if_neg (by rwa [Bool.and_eq_true])]
  rfl

/-! ### The statements -/

/-- Settles O36: a pc with one of its two lowest bits set is not aligned. -/
theorem misalignedFetchIsRefused : Obligations.MisalignedFetchIsRefused :=
  fun s h => step_of_misaligned s fun ⟨hpc, _⟩ => h ((alignedAddr_iff_extractLsb' s.pc).1 hpc)

/-- Settles O37: `readByte_writeWords` gives every byte of the placed program and every address outside it, a fetch behind
the program is not admitted, and `step_sameRun` is the frame of a step. -/
theorem programStandsInTheAddressSpace : Obligations.ProgramStandsInTheAddressSpace :=
  ⟨fun s start ws hlen =>
    ⟨fun k hk j hj => readByte_withProgram s start ws hlen k j hk hj,
      fun a ha => ⟨readByte_withProgram_outside s start a ws hlen ha, fun _ w => fetch_ne_next_of_offset _ ha w⟩⟩,
    step_sameRun⟩

end Sys2Proof.Machine

/-! SUPPORT. Proofs about the encoding, the decoder and the assembler (R46 to R59): what a field of a word is, what
`decode` answers, said once for all six forms, and the statements of the family `30_encoding`. -/

namespace Sys2Proof.Machine

/-! ### Fields put into a word (R46) -/

theorem extractLsb'_placeField_same {n : Nat} (v : BitVec n) (lo : Nat) (h : lo + n ≤ 32) :
    (placeField v lo).extractLsb' lo n = v := by
  apply BitVec.eq_of_getLsbD_eq
  intro k hk
  have hin : lo + k < 32 := by omega
  simp [placeField, hk, hin]

/-- Bits above or below a placed field are zero. -/
theorem extractLsb'_placeField_disjoint {n : Nat} (v : BitVec n) (lo start len : Nat)
    (h : start + len ≤ lo ∨ lo + n ≤ start) : (placeField v lo).extractLsb' start len = 0#len := by
  apply BitVec.eq_of_getLsbD_eq
  intro k hk
  have houtside : start + k < lo ∨ n ≤ start + k - lo := by omega
  rcases houtside with hbelow | habove
  · simp [placeField, hbelow]
  · simp [placeField, BitVec.getLsbD_of_ge v _ habove]

theorem encode_directForm (op : ShiftOp) (rd rs1 : RegNum) (count : Count) :
    encode (directForm op rd rs1 count) = encodeDirect op rd rs1 count := by cases op <;> rfl

theorem encode_registerForm (op : ShiftOp) (rd rs1 rs2 : RegNum) :
    encode (registerForm op rd rs1 rs2) = encodeRegister op rd rs1 rs2 := by cases op <;> rfl

/-- Settles O1: op, bits 12:7 and bit 6 are `Laws.FixedBits`; in the bits of any other field only the value placed
there can be other than zero. -/
theorem encodedWordLayout : Obligations.EncodedWordLayout := by
  refine ⟨fun op rd rs1 count => ?_, fun op rd rs1 rs2 => ?_, rfl, rfl, rfl⟩
  · obtain ⟨hop, hunused, hajit⟩ := Laws.FixedBits.direct op rd rs1 count
    rw [encode_directForm]
    refine ⟨hop, ?_, ?_, ?_, ?_, hunused, hajit, ?_⟩ <;>
      simp (disch := decide) only [encodeDirect, encodeCommon, BitVec.extractLsb'_or, extractLsb'_placeField_same,
        extractLsb'_placeField_disjoint, BitVec.or_zero, BitVec.zero_or]
  · obtain ⟨hop, hunused, hajit⟩ := Laws.FixedBits.register op rd rs1 rs2
    rw [encode_registerForm]
    refine ⟨hop, ?_, ?_, ?_, ?_, hunused, hajit, ?_, ?_⟩ <;>
      simp (disch := decide) only [encodeRegister, encodeCommon, BitVec.extractLsb'_or, extractLsb'_placeField_same,
        extractLsb'_placeField_disjoint, BitVec.or_zero, BitVec.zero_or]

/-- The bits of two words agree wherever a field that holds them does. -/
theorem getLsbD_eq_of_extractLsb'_eq {x y : Word} {start len : Nat}
    (h : x.extractLsb' start len = y.extractLsb' start len) (i : Nat) (hi : start ≤ i ∧ i < start + len) :
    x.getLsbD i = y.getLsbD i := by
  have hbit : (x.extractLsb' start len).getLsbD (i - start) = (y.extractLsb' start len).getLsbD (i - start) := by rw [h]
  have hlt : i - start < len := by omega
  simpa [hlt, Nat.add_sub_cancel' hi.1] using hbit

/-- Two words are equal exactly when the fields agree into which R46 and R48 cut bits 31 to 0. -/
theorem word_eq_iff_fields (x y : Word) :
    x = y ↔ x.extractLsb' 30 2 = y.extractLsb' 30 2 ∧ x.extractLsb' 25 5 = y.extractLsb' 25 5 ∧
      x.extractLsb' 19 6 = y.extractLsb' 19 6 ∧ x.extractLsb' 14 5 = y.extractLsb' 14 5 ∧
      x.extractLsb' 13 1 = y.extractLsb' 13 1 ∧ x.extractLsb' 7 6 = y.extractLsb' 7 6 ∧
      x.extractLsb' 6 1 = y.extractLsb' 6 1 ∧ x.extractLsb' 5 1 = y.extractLsb' 5 1 ∧
      x.extractLsb' 0 5 = y.extractLsb' 0 5 := by
  refine ⟨by rintro rfl; simp, fun ⟨hop, hrd, hop3, hrs1, hi, hunused, hajit, hbit5, hrs2⟩ => ?_⟩
  apply BitVec.eq_of_getLsbD_eq
  intro k hk
  obtain h | h | h | h | h | h | h | h | h : (30 ≤ k ∧ k < 32) ∨ (25 ≤ k ∧ k < 30) ∨ (19 ≤ k ∧ k < 25) ∨
      (14 ≤ k ∧ k < 19) ∨ (13 ≤ k ∧ k < 14) ∨ (7 ≤ k ∧ k < 13) ∨ (6 ≤ k ∧ k < 7) ∨ (5 ≤ k ∧ k < 6) ∨
      (0 ≤ k ∧ k < 5) := by omega
  · exact getLsbD_eq_of_extractLsb'_eq hop k h
  · exact getLsbD_eq_of_extractLsb'_eq hrd k h
  · exact getLsbD_eq_of_extractLsb'_eq hop3 k h
  · exact getLsbD_eq_of_extractLsb'_eq hrs1 k h
  · exact getLsbD_eq_of_extractLsb'_eq hi k h
  · exact getLsbD_eq_of_extractLsb'_eq hunused k h
  · exact getLsbD_eq_of_extractLsb'_eq hajit k h
  · exact getLsbD_eq_of_extractLsb'_eq hbit5 k h
  · exact getLsbD_eq_of_extractLsb'_eq hrs2 k h

/-! ### What the decoder answers (R55) -/

theorem shiftOp?_eq_some_iff (x : BitVec 6) (op : ShiftOp) : shiftOp? x = some op ↔ x = op3Of op := by
  revert x
  cases op <;> decide

/-- op, op3 and bit 6 of a word select an operation of the extension (R55 steps 1 and 2). -/
def selects (w : Word) (op : ShiftOp) : Prop := fieldOp w = 0b10#2 ∧ fieldOp3 w = op3Of op ∧ fieldAjit w = 1#1

/-- Bits 12:7 of a word do not keep it from decoding (R54). -/
def unusedAdmitted (p : UnusedBitsPolicy) (w : Word) : Prop := p = .strict → fieldUnused w = 0#6

/-- A word that selects no operation is outside the extension (R55 steps 1 and 2). -/
theorem decode_of_not_selects (p : UnusedBitsPolicy) (w : Word) (h : ∀ op, ¬selects w op) :
    decode p w = .error .notInExtension := by
  unfold decode
  split
  · rfl
  · next hop =>
    split
    · rfl
    · next op hop3 =>
      have hajit : fieldAjit w ≠ 1#1 := fun h1 => h op ⟨not_not.1 hop, (shiftOp?_eq_some_iff _ _).1 hop3, h1⟩
      rw [if_pos ((BitVec.eq_zero_or_eq_one _).resolve_right hajit)]

/-- Everything the decoder can answer of a word that selects an operation (R55 steps 3 to 6). -/
theorem decode_of_selects (p : UnusedBitsPolicy) (w : Word) (op : ShiftOp) (h : selects w op) :
    decode p w =
      if fieldUnused w ≠ 0#6 ∧ p = .strict then .error .reservedEncoding
      else if fieldI w = 1#1 then .ok (directForm op (fieldRd w) (fieldRs1 w) (fieldCount w))
      else if fieldBit5 w = 0#1 then .ok (registerForm op (fieldRd w) (fieldRs1 w) (fieldRs2 w))
      else .error .reservedEncoding := by
  obtain ⟨hop, hop3, hajit⟩ := h
  simp [decode, hop, (shiftOp?_eq_some_iff _ _).2 hop3, hajit]

/-- A word decodes exactly when it selects an operation, its bits 12:7 are admitted, and it has the layout of one of the
operation's two forms; then its fields are the operands (R47, R48, R55). -/
theorem decode_ok_iff (p : UnusedBitsPolicy) (w : Word) (i : Instr) :
    decode p w = .ok i ↔ ∃ op, selects w op ∧ unusedAdmitted p w ∧
      (fieldI w = 1#1 ∧ i = directForm op (fieldRd w) (fieldRs1 w) (fieldCount w) ∨
        fieldI w = 0#1 ∧ fieldBit5 w = 0#1 ∧ i = registerForm op (fieldRd w) (fieldRs1 w) (fieldRs2 w)) := by
  constructor
  · intro h
    obtain ⟨op, hsel⟩ : ∃ op, selects w op := by
      by_contra hnone
      rw [decode_of_not_selects p w (not_exists.1 hnone)] at h
      cases h
    rw [decode_of_selects p w op hsel] at h
    split at h
    · cases h
    · next hunused =>
      refine ⟨op, hsel, fun hp => not_not.1 fun hne => hunused ⟨hne, hp⟩, ?_⟩
      split at h
      · next hi => exact .inl ⟨hi, (Except.ok.inj h).symm⟩
      · next hi =>
        split at h
        · next h5 =>
          exact .inr ⟨(BitVec.eq_zero_or_eq_one _).resolve_right hi, h5, (Except.ok.inj h).symm⟩
        · cases h
  · rintro ⟨op, hsel, hunused, hform⟩
    rw [decode_of_selects p w op hsel, if_neg fun ⟨hne, hp⟩ => hne (hunused hp)]
    obtain ⟨hi, rfl⟩ | ⟨hi, h5, rfl⟩ := hform
    · rw [if_pos hi]
    · rw [if_neg (by simp [hi]), if_pos h5]

/-! ### The opcode table (R51, R54) -/

/-- The operation of a form (R2). -/
def opOfForm : Form → ShiftOp
  | .slldImm | .slldReg => .slld
  | .srldImm | .srldReg => .srld
  | .sradImm | .sradReg => .srad

@[simp] theorem opOfForm_directForm (op : ShiftOp) (rd rs1 : RegNum) (count : Count) :
    opOfForm (directForm op rd rs1 count).form = op := by cases op <;> rfl
@[simp] theorem opOfForm_registerForm (op : ShiftOp) (rd rs1 rs2 : RegNum) :
    opOfForm (registerForm op rd rs1 rs2).form = op := by cases op <;> rfl
@[simp] theorem isDirect_directForm (op : ShiftOp) (rd rs1 : RegNum) (count : Count) :
    (directForm op rd rs1 count).form.isDirect = true := by cases op <;> rfl
@[simp] theorem isDirect_registerForm (op : ShiftOp) (rd rs1 rs2 : RegNum) :
    (registerForm op rd rs1 rs2).form.isDirect = false := by cases op <;> rfl

/-- A form is its operation and its version (R2). -/
theorem form_eq_iff (f g : Form) : f = g ↔ opOfForm f = opOfForm g ∧ f.isDirect = g.isDirect := by
  cases f <;> cases g <;> decide

/-- The fixed fields of a form's words (R47, R48, R51). -/
def hasFixedFields (p : UnusedBitsPolicy) (f : Form) (w : Word) : Prop :=
  selects w (opOfForm f) ∧ unusedAdmitted p w ∧ fieldI w = (if f.isDirect then 1#1 else 0#1) ∧
    (f.isDirect = false → fieldBit5 w = 0#1)

/-- A word decodes to an instruction of a form exactly when it has the form's fixed fields (R55). -/
theorem decode_form_iff (p : UnusedBitsPolicy) (w : Word) (f : Form) :
    (∃ i, decode p w = .ok i ∧ i.form = f) ↔ hasFixedFields p f w := by
  constructor
  · rintro ⟨i, hdecode, rfl⟩
    obtain ⟨op, hsel, hunused, ⟨hi, rfl⟩ | ⟨hi, h5, rfl⟩⟩ := (decode_ok_iff p w i).1 hdecode
    · simp [hasFixedFields, hsel, hunused, hi]
    · simp [hasFixedFields, hsel, hunused, hi, h5]
  · rintro ⟨hsel, hunused, hi, h5⟩
    cases hf : f.isDirect with
    | true =>
      exact ⟨_, (decode_ok_iff p w _).2 ⟨_, hsel, hunused, .inl ⟨hi.trans (if_pos hf), rfl⟩⟩,
        (form_eq_iff _ f).2 ⟨by simp, by simp [hf]⟩⟩
    | false =>
      have hi0 : fieldI w = 0#1 := by simpa [hf] using hi
      exact ⟨_, (decode_ok_iff p w _).2 ⟨_, hsel, hunused, .inr ⟨hi0, h5 hf, rfl⟩⟩,
        (form_eq_iff _ f).2 ⟨by simp, by simp [hf]⟩⟩

/-- A field that is tested only under a condition. -/
theorem and_ite_allOnes_eq_zero_iff {n : Nat} (x : BitVec n) (c : Prop) [Decidable c] :
    (x &&& if c then BitVec.allOnes n else 0#n) = 0#n ↔ (c → x = 0#n) := by
  by_cases hc : c <;> simp [hc]

/-- The fields of a mask: those that R51 fixes are all ones, bits 12:7 only under `strict` (R54) and bit 5 only in a
register indirect form; rd, rs1 and the operand are free. -/
theorem fields_maskOf (p : UnusedBitsPolicy) (f : Form) :
    (maskOf p f).extractLsb' 30 2 = BitVec.allOnes 2 ∧ (maskOf p f).extractLsb' 25 5 = 0#5 ∧
    (maskOf p f).extractLsb' 19 6 = BitVec.allOnes 6 ∧ (maskOf p f).extractLsb' 14 5 = 0#5 ∧
    (maskOf p f).extractLsb' 13 1 = BitVec.allOnes 1 ∧
    (maskOf p f).extractLsb' 7 6 = (if p = .strict then BitVec.allOnes 6 else 0#6) ∧
    (maskOf p f).extractLsb' 6 1 = BitVec.allOnes 1 ∧
    (maskOf p f).extractLsb' 5 1 = (if f.isDirect = false then BitVec.allOnes 1 else 0#1) ∧
    (maskOf p f).extractLsb' 0 5 = 0#5 := by
  cases p <;> cases f <;> decide

/-- The fields of a match word: op, op3, i and bit 6 of the form, zero elsewhere (R51). -/
theorem fields_matchOf (f : Form) :
    (matchOf f).extractLsb' 30 2 = 0b10#2 ∧ (matchOf f).extractLsb' 25 5 = 0#5 ∧
    (matchOf f).extractLsb' 19 6 = op3Of (opOfForm f) ∧ (matchOf f).extractLsb' 14 5 = 0#5 ∧
    (matchOf f).extractLsb' 13 1 = (if f.isDirect then 1#1 else 0#1) ∧ (matchOf f).extractLsb' 7 6 = 0#6 ∧
    (matchOf f).extractLsb' 6 1 = 1#1 ∧ (matchOf f).extractLsb' 5 1 = 0#1 ∧ (matchOf f).extractLsb' 0 5 = 0#5 := by
  cases f <;> decide

/-- A word matches a form's row of the opcode table exactly when it has the form's fixed fields (R51, R54). -/
theorem and_maskOf_eq_matchOf_iff (p : UnusedBitsPolicy) (w : Word) (f : Form) :
    w &&& maskOf p f = matchOf f ↔ hasFixedFields p f w := by
  obtain ⟨mop, mrd, mop3, mrs1, mi, munused, majit, mbit5, mrs2⟩ := fields_maskOf p f
  obtain ⟨vop, vrd, vop3, vrs1, vi, vunused, vajit, vbit5, vrs2⟩ := fields_matchOf f
  rw [word_eq_iff_fields]
  simp only [BitVec.extractLsb'_and, mop, mrd, mop3, mrs1, mi, munused, majit, mbit5, mrs2, vop, vrd, vop3, vrs1, vi,
    vunused, vajit, vbit5, vrs2, BitVec.and_allOnes, BitVec.and_zero, and_ite_allOnes_eq_zero_iff]
  simp only [hasFixedFields, selects, unusedAdmitted, fieldOp, fieldOp3, fieldAjit, fieldI, fieldUnused, fieldBit5]
  tauto

/-- Settles O6: decoding to a form and matching its row are both `hasFixedFields`; no two rows overlap because a word
decodes to one instruction. -/
theorem decodeAgreesWithOpcodeTable : Obligations.DecodeAgreesWithOpcodeTable := by
  have hrow (p : UnusedBitsPolicy) (w : Word) (f : Form) :
      (∃ i, decode p w = .ok i ∧ i.form = f) ↔ w &&& maskOf p f = matchOf f :=
    (decode_form_iff p w f).trans (and_maskOf_eq_matchOf_iff p w f).symm
  refine ⟨fun p w => ⟨hrow p w, fun f g hf hg => ?_⟩, fun w h6 p i hi => ?_, by decide, fun f => ?_⟩
  · obtain ⟨i, hi, rfl⟩ := (hrow p w f).2 hf
    obtain ⟨j, hj, rfl⟩ := (hrow p w g).2 hg
    rw [Except.ok.inj (hi.symm.trans hj)]
  · obtain ⟨op, ⟨-, -, hajit⟩, -⟩ := (decode_ok_iff p w i).1 hi
    have hbit : (fieldAjit w).getLsbD 0 = w.getLsbD 6 := by simp [fieldAjit]
    rw [hajit, h6] at hbit
    cases hbit
  · cases f <;> decide

/-! ### Bits 12:7 (R54) -/

/-- A word whose bits 12:7 are zero decodes alike under both policies. -/
theorem decode_eq_of_unused_zero (p q : UnusedBitsPolicy) (w : Word) (h : fieldUnused w = 0#6) :
    decode p w = decode q w := by
  simp [decode, h]

theorem fieldUnused_clearUnused (w : Word) : fieldUnused (w &&& 0xFFFFE07F#32) = 0#6 := by
  rw [fieldUnused, BitVec.extractLsb'_and]
  exact BitVec.and_zero

/-- Under `ignore` clearing bits 12:7 does not change what a word decodes to: every other field is the same. -/
theorem decode_ignore_clearUnused (w : Word) : decode .ignore (w &&& 0xFFFFE07F#32) = decode .ignore w := by
  have hfield (start len : Nat) (h : (0xFFFFE07F#32).extractLsb' start len = BitVec.allOnes len) :
      (w &&& 0xFFFFE07F#32).extractLsb' start len = w.extractLsb' start len := by
    rw [BitVec.extractLsb'_and, h, BitVec.and_allOnes]
  have hop : fieldOp (w &&& 0xFFFFE07F#32) = fieldOp w := hfield 30 2 (by decide)
  have hrd : fieldRd (w &&& 0xFFFFE07F#32) = fieldRd w := hfield 25 5 (by decide)
  have hop3 : fieldOp3 (w &&& 0xFFFFE07F#32) = fieldOp3 w := hfield 19 6 (by decide)
  have hrs1 : fieldRs1 (w &&& 0xFFFFE07F#32) = fieldRs1 w := hfield 14 5 (by decide)
  have hi : fieldI (w &&& 0xFFFFE07F#32) = fieldI w := hfield 13 1 (by decide)
  have hajit : fieldAjit (w &&& 0xFFFFE07F#32) = fieldAjit w := hfield 6 1 (by decide)
  have hcount : fieldCount (w &&& 0xFFFFE07F#32) = fieldCount w := hfield 0 6 (by decide)
  have hbit5 : fieldBit5 (w &&& 0xFFFFE07F#32) = fieldBit5 w := hfield 5 1 (by decide)
  have hrs2 : fieldRs2 (w &&& 0xFFFFE07F#32) = fieldRs2 w := hfield 0 5 (by decide)
  rw [decode, decode, hop, hrd, hop3, hrs1, hi, hajit, hcount, hbit5, hrs2]
  simp only [reduceCtorEq, and_false, if_false]

/-- Settles O7: `decode_ok_iff` asks for zero bits under `strict`, and the masked word has them zero. -/
theorem unusedBitsPolicyDecides : Obligations.UnusedBitsPolicyDecides := by
  refine fun w => ⟨fun hne i hi => ?_, decode_eq_of_unused_zero _ _ w, ?_⟩
  · obtain ⟨_, -, hunused, -⟩ := (decode_ok_iff .strict w i).1 hi
    exact hne (hunused rfl)
  · rw [← decode_ignore_clearUnused]
    exact decode_eq_of_unused_zero _ _ _ (fieldUnused_clearUnused w)

/-! ### A fetched word that is no instruction (R56) -/

/-- A rejected word stops the step with its refusal. -/
theorem step_of_decode_error {s : State} {w : Word} {e : DecodeReject} (hw : fetch s = .next w)
    (he : decode s.policies.unusedBits w = .error e) : step s = .refused (refusalOf e) := by
  rw [step, hw, andThen_of_next, decodeFetched, he]
  rfl

/-- The three values of op3 that select an operation (R49). -/
theorem exists_eq_op3Of_iff (x : BitVec 6) :
    (∃ op, x = op3Of op) ↔ x = 0b100101#6 ∨ x = 0b100110#6 ∨ x = 0b100111#6 := by
  constructor
  · rintro ⟨_ | _ | _, rfl⟩ <;> decide
  · rintro (rfl | rfl | rfl)
    exacts [⟨.slld, rfl⟩, ⟨.srld, rfl⟩, ⟨.srad, rfl⟩]

theorem exists_selects_iff (w : Word) :
    (∃ op, selects w op) ↔ fieldOp w = 0b10#2 ∧
      (fieldOp3 w = 0b100101#6 ∨ fieldOp3 w = 0b100110#6 ∨ fieldOp3 w = 0b100111#6) ∧ fieldAjit w = 1#1 := by
  simp only [selects, exists_and_left, exists_and_right, exists_eq_op3Of_iff]

/-- Settles O8: the decoder rejects each of these words by the name that its refusal bears. -/
theorem wordsThatAreNoInstructionAreRefused : Obligations.WordsThatAreNoInstructionAreRefused := by
  refine fun s w hw => ⟨fun hnot => ?_, fun hsel hunused hp => ?_, fun hsel hi h5 => ?_⟩
  · exact step_of_decode_error hw (decode_of_not_selects _ w (not_exists.1 (mt (exists_selects_iff w).1 hnot)))
  · obtain ⟨op, hop⟩ := (exists_selects_iff w).2 hsel
    exact step_of_decode_error hw ((decode_of_selects _ w op hop).trans (if_pos ⟨hunused, hp⟩))
  · obtain ⟨op, hop⟩ := (exists_selects_iff w).2 hsel
    refine step_of_decode_error (e := .reservedEncoding) hw ?_
    simp [decode_of_selects _ w op hop, fieldI, hi, fieldBit5, h5]

/-! ### The assembler (R58, R59) -/

theorem opOfMnemonic_mnemonicOf (op : ShiftOp) : opOfMnemonic (mnemonicOf op) = some op := by cases op <;> decide

/-- No other text than R58's three mnemonics names an operation (R59). -/
theorem opOfMnemonic_eq_none {m : String} (h : ¬(m = "slld" ∨ m = "srld" ∨ m = "srad")) : opOfMnemonic m = none := by
  obtain ⟨hslld, hsrld, hsrad⟩ := by simpa only [not_or] using h
  rw [opOfMnemonic, if_neg hslld, if_neg hsrld, if_neg hsrad]

/-- A line with a direct count (R59). -/
theorem assemble_direct (op : ShiftOp) (a c d : Nat) :
    assemble ⟨mnemonicOf op, .reg a, .num c, .reg d⟩ =
      if a < 32 ∧ c < 64 ∧ d < 32 then
        some (directForm op (BitVec.ofNat 5 d) (BitVec.ofNat 5 a) (BitVec.ofNat 6 c))
      else none := by
  rw [assemble, opOfMnemonic_mnemonicOf]

/-- A line with a count register (R59). -/
theorem assemble_register (op : ShiftOp) (a b d : Nat) :
    assemble ⟨mnemonicOf op, .reg a, .reg b, .reg d⟩ =
      if a < 32 ∧ b < 32 ∧ d < 32 then
        some (registerForm op (BitVec.ofNat 5 d) (BitVec.ofNat 5 a) (BitVec.ofNat 5 b))
      else none := by
  rw [assemble, opOfMnemonic_mnemonicOf]

theorem assemble_of_not_mnemonic (l : AsmLine) (h : opOfMnemonic l.mnemonic = none) : assemble l = none := by
  rw [assemble, h]

theorem assemble_num_first (m : String) (a : Nat) (y z : AsmOperand) : assemble ⟨m, .num a, y, z⟩ = none := by
  unfold assemble
  split
  · cases ‹AsmOperand.num a = .reg _›
  · cases ‹AsmOperand.num a = .reg _›
  · rfl

theorem assemble_num_third (m : String) (x y : AsmOperand) (d : Nat) : assemble ⟨m, x, y, .num d⟩ = none := by
  unfold assemble
  split
  · cases ‹AsmOperand.num d = .reg _›
  · cases ‹AsmOperand.num d = .reg _›
  · rfl

/-- Settles O11: each mnemonic is that of an operation, whose two kinds of line are `assemble_direct` and
`assemble_register`; the other lines miss the mnemonic or the register that both kinds ask for. -/
theorem assemblyOperandRanges : Obligations.AssemblyOperandRanges := by
  refine fun m x y z a b d => ⟨fun hm => ?_, fun hm => assemble_of_not_mnemonic _ (opOfMnemonic_eq_none hm),
    assemble_num_first m a y z, assemble_num_third m x y d⟩
  obtain ⟨op, rfl⟩ : ∃ op, m = mnemonicOf op := by
    rcases hm with rfl | rfl | rfl
    exacts [⟨.slld, rfl⟩, ⟨.srld, rfl⟩, ⟨.srad, rfl⟩]
  rw [assemble_direct, assemble_register]
  simp

end Sys2Proof.Machine

/-! SUPPORT. Proofs about the 64-bit shift functions (R71 to R73): each is the shift of bit vectors of its name, from which
its bits and its value follow. -/

namespace Sys2Proof.Machine

/-! ### The shift functions as shifts of bit vectors (R71 to R73) -/

theorem shl64_eq_shiftLeft (v : DWord) (c : Count) : shl64 v c = v <<< c.toNat := by
  rw [shl64, ← Nat.shiftLeft_eq]
  rfl

theorem lshr64_eq_ushiftRight (v : DWord) (c : Count) : lshr64 v c = v >>> c.toNat := by
  rw [lshr64, ← Nat.shiftRight_eq_div_pow, ← BitVec.toNat_ushiftRight, BitVec.ofNat_toNat, BitVec.setWidth_eq]

theorem ashr64_eq_sshiftRight (v : DWord) (c : Count) : ashr64 v c = v.sshiftRight c.toNat := by
  rw [ashr64, BitVec.sshiftRight_eq, Int.shiftRight_eq_div_pow, Nat.cast_pow, Nat.cast_ofNat]

/-! ### Their bits and their values -/

/-- A left shift moves the bits of v up and lets zeros enter below (R71). -/
theorem getLsbD_shl64 (v : DWord) (c : Count) {k : Nat} (hk : k < 64) :
    (shl64 v c).getLsbD k = if c.toNat ≤ k then v.getLsbD (k - c.toNat) else false := by
  rw [shl64_eq_shiftLeft, BitVec.getLsbD_shiftLeft]
  split
  · next h => simp [hk, h]
  · next h => simp [Nat.lt_of_not_le h]

/-- A logical right shift moves the bits of v down; above bit 63 of v there are only zeros (R72). -/
theorem getLsbD_lshr64 (v : DWord) (c : Count) (k : Nat) :
    (lshr64 v c).getLsbD k = if k + c.toNat ≤ 63 then v.getLsbD (k + c.toNat) else false := by
  rw [lshr64_eq_ushiftRight, BitVec.getLsbD_ushiftRight, Nat.add_comm]
  split
  · rfl
  · next h => exact BitVec.getLsbD_of_ge v _ (Nat.lt_of_not_le h)

/-- An arithmetic right shift moves the bits of v down and lets copies of bit 63 of v enter above (R73). -/
theorem getLsbD_ashr64 (v : DWord) (c : Count) {k : Nat} (hk : k < 64) :
    (ashr64 v c).getLsbD k = if k + c.toNat ≤ 63 then v.getLsbD (k + c.toNat) else v.getLsbD 63 := by
  rw [ashr64_eq_sshiftRight, BitVec.getLsbD_sshiftRight, Nat.add_comm]
  split
  · next h => simp [hk, Nat.le_of_lt_succ h]
  · next h => simp [hk, Nat.not_le.2 (Nat.not_lt.1 h), BitVec.msb_eq_getLsbD_last]

theorem toNat_lshr64 (v : DWord) (c : Count) : (lshr64 v c).toNat = v.toNat / 2 ^ c.toNat := by
  rw [lshr64_eq_ushiftRight, BitVec.toNat_ushiftRight, Nat.shiftRight_eq_div_pow]

theorem toInt_ashr64 (v : DWord) (c : Count) : (ashr64 v c).toInt = v.toInt / 2 ^ c.toNat := by
  rw [ashr64_eq_sshiftRight, BitVec.toInt_sshiftRight, Int.shiftRight_eq_div_pow, Nat.cast_pow, Nat.cast_ofNat]

/-! ### The statements -/

/-- Settles O13: the bits are those of a left shift of bit vectors, and the value is what `shl64` narrows to 64 bits. -/
theorem leftShiftLaw : Obligations.LeftShiftLaw :=
  fun v c => ⟨fun _ hk => getLsbD_shl64 v c hk, BitVec.toNat_ofNat _ 64⟩

/-- Settles O14: the bits are those of a logical right shift, whose quotient needs no narrowing. -/
theorem logicalRightShiftLaw : Obligations.LogicalRightShiftLaw :=
  fun v c => ⟨fun k _ => getLsbD_lshr64 v c k, toNat_lshr64 v c⟩

/-- Settles O15: the bits are those of an arithmetic right shift, and by a positive divisor the quotient of integers is the
floor of the rational one. -/
theorem arithmeticRightShiftLaw : Obligations.ArithmeticRightShiftLaw := by
  refine fun v c => ⟨fun _ hk => getLsbD_ashr64 v c hk, ?_⟩
  have hfloor := Rat.floor_intCast_div_natCast v.toInt (2 ^ c.toNat)
  push_cast at hfloor
  rw [toInt_ashr64, hfloor]

end Sys2Proof.Machine

/-! SUPPORT. Proofs about the count register of a register form (R80): the direct form it acts as, said once, and the
statement of the family `41_shift_register`. -/

namespace Sys2Proof.Machine

/-! ### The two versions of an operation as one shift -/

theorem exec_directForm (op : ShiftOp) (rd rs1 : RegNum) (count : Count) (s : State) :
    exec (directForm op rd rs1 count) s = shiftPair (shiftFunction op) rd rs1 (.direct count) s := by
  cases op <;> rfl

theorem exec_registerForm (op : ShiftOp) (rd rs1 rs2 : RegNum) (s : State) :
    exec (registerForm op rd rs1 rs2) s = shiftPair (shiftFunction op) rd rs1 (.register rs2) s := by
  cases op <;> rfl

@[simp] theorem countReg?_registerForm (op : ShiftOp) (rd rs1 rs2 : RegNum) :
    (registerForm op rd rs1 rs2).countReg? = some rs2 := by cases op <;> rfl

/-! ### The count register -/

/-- A shift depends on its count operand only through what reading it answers (R70 part 4). -/
theorem shiftPair_congr_readCount (f : DWord → Count → DWord) (rd rs1 : RegNum) {c d : CountOperand} {s : State}
    (h : readCount c s = readCount d s) : shiftPair f rd rs1 c s = shiftPair f rd rs1 d s := by
  rw [shiftPair, shiftPair, h]

/-- An admitted count register reads as a direct count: its value, narrowed to six bits (R80). -/
theorem readCount_register_of_admitted (rs2 : RegNum) (s : State)
    (h : s.policies.regCountHigh = .ignore ∨ (s.readReg rs2).toNat < 64) :
    readCount (.register rs2) s = readCount (.direct (BitVec.ofNat 6 (s.readReg rs2).toNat)) s := by
  rw [readCount, readCount, countOfWord_eq, if_pos h]
  rfl

/-- A register form whose count register is admitted acts as the direct form with that register's low six bits (R80). -/
theorem exec_registerForm_of_admitted (op : ShiftOp) (rd rs1 rs2 : RegNum) (s : State)
    (h : s.policies.regCountHigh = .ignore ∨ (s.readReg rs2).toNat < 64) :
    exec (registerForm op rd rs1 rs2) s = exec (directForm op rd rs1 (BitVec.ofNat 6 (s.readReg rs2).toNat)) s := by
  rw [exec_registerForm, exec_directForm]
  exact shiftPair_congr_readCount _ rd rs1 (readCount_register_of_admitted rs2 s h)

/-- A register form whose designators are admitted and whose count register is not is refused for its count (R80). -/
theorem exec_registerForm_of_count_refused (op : ShiftOp) (rd rs1 rs2 : RegNum) (s : State)
    (hpairs : s.pairsAdmitted (registerForm op rd rs1 rs2)) (hp : s.policies.regCountHigh = .refuse)
    (hcount : 64 ≤ (s.readReg rs2).toNat) : exec (registerForm op rd rs1 rs2) s = .refused .countRegisterHighBits := by
  have hnot : ¬s.countAdmitted (registerForm op rd rs1 rs2) := fun h => by
    rcases h rs2 (countReg?_registerForm op rd rs1 rs2) with hignore | hlt
    · cases hp.symm.trans hignore
    · exact absurd hlt (Nat.not_lt.2 hcount)
  rw [exec_eq, if_pos hpairs, if_neg hnot]

/-! ### The statement -/

/-- Settles O28: an admitted count register gives the direct form its value narrowed to six bits, which is 0 both for
register 0 (R12) and for 64; the remaining clause is the refusal. -/
theorem countComesFromTheLowSixBits : Obligations.CountComesFromTheLowSixBits := by
  intro op rd rs1 rs2 s
  refine ⟨fun hp => ?_, fun hlt => exec_registerForm_of_admitted op rd rs1 rs2 s (.inr hlt),
    fun hp hcount hrd hrs1 => ?_, ?_, fun h64 hp => ?_⟩
  · rw [exec_registerForm_of_admitted op rd rs1 rs2 s (.inl hp)]
    have hmod (n : Nat) : BitVec.ofNat 6 (n % 64) = BitVec.ofNat 6 n :=
      BitVec.eq_of_toNat_eq (Nat.mod_mod n 64)
    rw [hmod]
  · exact exec_registerForm_of_count_refused op rd rs1 rs2 s (.inl (by simp [evenReg_iff, hrd, hrs1])) hp hcount
  · exact exec_registerForm_of_admitted op rd rs1 0#5 s (.inr (by simp))
  · rw [exec_registerForm_of_admitted op rd rs1 rs2 s (.inl hp), h64]
    rfl

end Sys2Proof.Machine

/-! SUPPORT. Proofs about the one fault of the model (R16, R90, R93): when an instruction gives it, said once, and the
statement of the family `60_exceptions`. -/

namespace Sys2Proof.Machine

/-- The designators of an instruction are admitted when both are even, or by `mask_low_bit` (R16). -/
theorem pairsAdmitted_iff_wellFormed (i : Instr) (s : State) :
    s.pairsAdmitted i ↔ i.wellFormed = true ∨ s.policies.oddPair = .maskLowBit := by
  rw [State.pairsAdmitted, Instr.wellFormed, Bool.and_eq_true]

/-- An instruction faults exactly when one of its designators is odd and the policy asks for the fault (R16, R90). -/
theorem exec_fault_iff (i : Instr) (s : State) (f : Fault) :
    exec i s = .fault f ↔ s.policies.oddPair = .trapIllegalInstruction ∧ i.wellFormed = false := by
  rw [exec_eq]
  by_cases hpairs : s.pairsAdmitted i
  · rw [if_pos hpairs]
    refine iff_of_false (by split <;> exact nofun) fun ⟨htrap, hodd⟩ => ?_
    simp [pairsAdmitted_iff_wellFormed, htrap, hodd] at hpairs
  · rw [if_neg hpairs]
    obtain ⟨hodd, hmask⟩ := not_or.1 (mt (pairsAdmitted_iff_wellFormed i s).2 hpairs)
    cases f
    cases hp : s.policies.oddPair with
    | refuse => simp
    | maskLowBit => exact absurd hp hmask
    | trapIllegalInstruction => simp [hodd]

/-- Settles O33: `exec_fault_iff` asks for an odd designator and for the policy. -/
theorem noShiftRaisesAnException : Obligations.NoShiftRaisesAnException := by
  refine fun i s f => ⟨fun heven hfault => ?_, (exec_fault_iff i s f).1⟩
  obtain ⟨-, hodd⟩ := (exec_fault_iff i s f).1 hfault
  exact Bool.false_ne_true (hodd.symm.trans heven)

end Sys2Proof.Machine

/-! SUPPORT. Proofs that the encoder, the decoder and the assembler agree (R35, R46 to R62): an instruction is what its word
decodes to, a word is the word of what it decodes to, the decode procedure by arithmetic, and an instruction's line. -/

namespace Sys2Proof.Machine

/-! ### Decoding an encoded instruction (R46 to R48, R55) -/

/-- An instruction is an operation in one of its two versions (R2). -/
theorem eq_directForm_or_registerForm (i : Instr) :
    (∃ op rd rs1 count, i = directForm op rd rs1 count) ∨ ∃ op rd rs1 rs2, i = registerForm op rd rs1 rs2 := by
  cases i with
  | slldImm rd rs1 count => exact .inl ⟨.slld, rd, rs1, count, rfl⟩
  | srldImm rd rs1 count => exact .inl ⟨.srld, rd, rs1, count, rfl⟩
  | sradImm rd rs1 count => exact .inl ⟨.srad, rd, rs1, count, rfl⟩
  | slldReg rd rs1 rs2 => exact .inr ⟨.slld, rd, rs1, rs2, rfl⟩
  | srldReg rd rs1 rs2 => exact .inr ⟨.srld, rd, rs1, rs2, rfl⟩
  | sradReg rd rs1 rs2 => exact .inr ⟨.srad, rd, rs1, rs2, rfl⟩

/-- The word of an instruction has the fields that the decoder asks for, and its operands in their places (R46 to R48). -/
theorem decode_encode (p : UnusedBitsPolicy) (i : Instr) : decode p (encode i) = .ok i := by
  obtain ⟨hdirect, hregister, -⟩ := encodedWordLayout
  obtain ⟨op, rd, rs1, count, rfl⟩ | ⟨op, rd, rs1, rs2, rfl⟩ := eq_directForm_or_registerForm i
  · obtain ⟨hop, hrd, hop3, hrs1, hi, hunused, hajit, hcount⟩ := hdirect op rd rs1 count
    refine (decode_ok_iff p _ _).2 ⟨op, ⟨hop, hop3, hajit⟩, fun _ => hunused, .inl ⟨hi, ?_⟩⟩
    rw [fieldRd, fieldRs1, fieldCount, hrd, hrs1, hcount]
  · obtain ⟨hop, hrd, hop3, hrs1, hi, hunused, hajit, hbit5, hrs2⟩ := hregister op rd rs1 rs2
    refine (decode_ok_iff p _ _).2 ⟨op, ⟨hop, hop3, hajit⟩, fun _ => hunused, .inr ⟨hi, hbit5, ?_⟩⟩
    rw [fieldRd, fieldRs1, fieldRs2, hrd, hrs1, hrs2]

/-- Settles O2: the layout of the word of each form is what the decoder asks for. -/
theorem decodeOfEncodedInstruction : Obligations.DecodeOfEncodedInstruction := decode_encode

/-! ### Encoding a decoded word -/

/-- Two words that agree in a field agree in any part of it. -/
theorem extractLsb'_eq_of_subfield {x y : Word} {start len : Nat} (h : x.extractLsb' start len = y.extractLsb' start len)
    (lo n : Nat) (hlo : start ≤ lo) (hn : lo + n ≤ start + len) : x.extractLsb' lo n = y.extractLsb' lo n := by
  apply BitVec.eq_of_getLsbD_eq
  intro k hk
  simp only [BitVec.getLsbD_extractLsb']
  rw [getLsbD_eq_of_extractLsb'_eq h (lo + k) ⟨by omega, by omega⟩]

/-- A word that decodes and whose bits 12:7 are zero is the word of the instruction it decodes to: field by field, what the
decoder read is what the encoder places. -/
theorem encode_of_decode {p : UnusedBitsPolicy} {w : Word} {i : Instr} (h : decode p w = .ok i)
    (hzero : fieldUnused w = 0#6) : encode i = w := by
  obtain ⟨hdirect, hregister, -⟩ := encodedWordLayout
  obtain ⟨op, ⟨wop, wop3, wajit⟩, -, ⟨wi, rfl⟩ | ⟨wi, wbit5, rfl⟩⟩ := (decode_ok_iff p w i).1 h
  · obtain ⟨hop, hrd, hop3, hrs1, hi, hunused, hajit, hcount⟩ := hdirect op (fieldRd w) (fieldRs1 w) (fieldCount w)
    exact (word_eq_iff_fields _ w).2 ⟨hop.trans wop.symm, hrd, hop3.trans wop3.symm, hrs1, hi.trans wi.symm,
      hunused.trans hzero.symm, hajit.trans wajit.symm,
      extractLsb'_eq_of_subfield hcount 5 1 (by decide) (by decide),
      extractLsb'_eq_of_subfield hcount 0 5 (by decide) (by decide)⟩
  · obtain ⟨hop, hrd, hop3, hrs1, hi, hunused, hajit, hbit5, hrs2⟩ :=
      hregister op (fieldRd w) (fieldRs1 w) (fieldRs2 w)
    exact (word_eq_iff_fields _ w).2 ⟨hop.trans wop.symm, hrd, hop3.trans wop3.symm, hrs1, hi.trans wi.symm,
      hunused.trans hzero.symm, hajit.trans wajit.symm, hbit5.trans wbit5.symm, hrs2⟩

/-- Settles O3: under `strict` a word that decodes has bits 12:7 zero; under `ignore` it decodes like the word with them
cleared. -/
theorem encodeOfDecodedWord : Obligations.EncodeOfDecodedWord := by
  refine fun w i => ⟨fun h => ?_, fun h => ?_⟩
  · obtain ⟨_, -, hunused, -⟩ := (decode_ok_iff .strict w i).1 h
    exact encode_of_decode h (hunused rfl)
  · rw [← decode_ignore_clearUnused] at h
    exact encode_of_decode h (fieldUnused_clearUnused w)

/-! ### Bytes (R35, R45) -/

theorem decodeBytes_bytesOfWord (p : UnusedBitsPolicy) (w : Word) (rest : List Byte) :
    decodeBytes p (bytesOfWord w ++ rest) = (decode p w).map fun i => (i, rest) := by
  simp only [bytesOfWord, List.cons_append, List.nil_append, decodeBytes, wordOfBytes_byteOfWord]
  cases decode p w <;> rfl

/-- Settles O4: the four bytes are put together to the word they were split from, which decodes to the instruction. -/
theorem decodeBytesOfEncodedBytes : Obligations.DecodeBytesOfEncodedBytes := by
  refine fun p i rest => ⟨?_, rfl⟩
  rw [encodeBytes, decodeBytes_bytesOfWord, decode_encode]
  rfl

/-- Settles O9: each word is put through the decoder. -/
theorem vectorWordsDecode : Obligations.VectorWordsDecode := by
  unfold Obligations.VectorWordsDecode
  decide

/-! ### The decode procedure, its fields read by division (R5, R55) -/

theorem extractLsb'_eq_ofNat_div (w : Word) (start len : Nat) :
    w.extractLsb' start len = BitVec.ofNat len (w.toNat / 2 ^ start) := by
  rw [BitVec.extractLsb', Nat.shiftRight_eq_div_pow]

theorem extractLsb'_eq_iff_div (w : Word) (start len : Nat) (v : BitVec len) :
    w.extractLsb' start len = v ↔ w.toNat / 2 ^ start % 2 ^ len = v.toNat := by
  rw [← BitVec.toNat_inj, BitVec.extractLsb'_toNat, Nat.shiftRight_eq_div_pow]

/-- The operation that a word selects, with op, op3 and bit 6 read by division (R55 steps 1 and 2). -/
theorem selects_iff_div (w : Word) (op : ShiftOp) :
    selects w op ↔ w.toNat / 2 ^ 30 = 2 ∧ w.toNat / 2 ^ 19 % 64 = (op3Of op).toNat ∧ w.toNat / 2 ^ 6 % 2 = 1 := by
  have htop : w.toNat / 2 ^ 30 % 2 ^ 2 = w.toNat / 2 ^ 30 :=
    Nat.mod_eq_of_lt (Nat.div_lt_of_lt_mul w.isLt)
  rw [selects, fieldOp, fieldOp3, fieldAjit, extractLsb'_eq_iff_div, extractLsb'_eq_iff_div, extractLsb'_eq_iff_div, htop]
  rfl

theorem exists_selects_iff_div (w : Word) :
    (∃ op, selects w op) ↔ w.toNat / 2 ^ 30 = 2 ∧
      (w.toNat / 2 ^ 19 % 64 = 0b100101 ∨ w.toNat / 2 ^ 19 % 64 = 0b100110 ∨ w.toNat / 2 ^ 19 % 64 = 0b100111) ∧
      w.toNat / 2 ^ 6 % 2 = 1 := by
  simp only [selects_iff_div]
  constructor
  · rintro ⟨_ | _ | _, hop, hop3, hajit⟩
    exacts [⟨hop, .inl hop3, hajit⟩, ⟨hop, .inr (.inl hop3), hajit⟩, ⟨hop, .inr (.inr hop3), hajit⟩]
  · rintro ⟨hop, hop3 | hop3 | hop3, hajit⟩
    exacts [⟨.slld, hop, hop3, hajit⟩, ⟨.srld, hop, hop3, hajit⟩, ⟨.srad, hop, hop3, hajit⟩]

/-- `decode_of_selects` with its fields read by division (R55 steps 3 to 6). -/
theorem decode_of_selects_div (p : UnusedBitsPolicy) (w : Word) (op : ShiftOp) (h : selects w op) :
    decode p w =
      if w.toNat / 2 ^ 7 % 64 ≠ 0 ∧ p = .strict then .error .reservedEncoding
      else if w.toNat / 2 ^ 13 % 2 = 1 then
        .ok (directForm op (BitVec.ofNat 5 (w.toNat / 2 ^ 25)) (BitVec.ofNat 5 (w.toNat / 2 ^ 14))
          (BitVec.ofNat 6 w.toNat))
      else if w.toNat / 2 ^ 5 % 2 = 0 then
        .ok (registerForm op (BitVec.ofNat 5 (w.toNat / 2 ^ 25)) (BitVec.ofNat 5 (w.toNat / 2 ^ 14))
          (BitVec.ofNat 5 w.toNat))
      else .error .reservedEncoding := by
  have hunused : fieldUnused w = 0#6 ↔ w.toNat / 2 ^ 7 % 64 = 0 := extractLsb'_eq_iff_div w 7 6 0#6
  have hi : fieldI w = 1#1 ↔ w.toNat / 2 ^ 13 % 2 = 1 := extractLsb'_eq_iff_div w 13 1 1#1
  have hbit5 : fieldBit5 w = 0#1 ↔ w.toNat / 2 ^ 5 % 2 = 0 := extractLsb'_eq_iff_div w 5 1 0#1
  have hrd : fieldRd w = BitVec.ofNat 5 (w.toNat / 2 ^ 25) := extractLsb'_eq_ofNat_div w 25 5
  have hrs1 : fieldRs1 w = BitVec.ofNat 5 (w.toNat / 2 ^ 14) := extractLsb'_eq_ofNat_div w 14 5
  have hcount : fieldCount w = BitVec.ofNat 6 w.toNat := rfl
  have hrs2 : fieldRs2 w = BitVec.ofNat 5 w.toNat := rfl
  simp only [decode_of_selects p w op h, ne_eq, hunused, hi, hbit5, hrd, hrs1, hcount, hrs2]

/-- Settles O5: outside the extension no operation is selected; in it each clause is one branch of
`decode_of_selects_div`. -/
theorem decodeProcedure : Obligations.DecodeProcedure := by
  intro p w op op3 bit6 unused i bit5 rd rs1 inExtension admitted
  have hselects (hin : inExtension) (o : ShiftOp) (ho : op3 = (op3Of o).toNat) : selects w o :=
    (selects_iff_div w o).2 ⟨hin.1, ho, hin.2.2⟩
  have hdirect (hadm : admitted) (hi : i = 1) (o : ShiftOp) (ho : op3 = (op3Of o).toNat) :
      decode p w = .ok (directForm o rd rs1 (BitVec.ofNat 6 w.toNat)) := by
    rw [decode_of_selects_div p w o (hselects hadm.1 o ho), if_neg hadm.2, if_pos hi]
  have hregister (hadm : admitted) (hi : i = 0) (h5 : bit5 = 0) (o : ShiftOp) (ho : op3 = (op3Of o).toNat) :
      decode p w = .ok (registerForm o rd rs1 (BitVec.ofNat 5 w.toNat)) := by
    rw [decode_of_selects_div p w o (hselects hadm.1 o ho), if_neg hadm.2, if_neg (hi.trans_ne Nat.zero_ne_one),
      if_pos h5]
  refine ⟨fun hout => ?_, fun hin hne hp => ?_, fun hadm hi => ?_, fun hadm hi h5 => ?_, fun hadm hi h5 => ?_⟩
  · exact decode_of_not_selects p w (not_exists.1 (mt (exists_selects_iff_div w).1 hout))
  · obtain ⟨o, ho⟩ := (exists_selects_iff_div w).2 hin
    rw [decode_of_selects_div p w o ho, if_pos ⟨hne, hp⟩]
  · exact ⟨hdirect hadm hi .slld, hdirect hadm hi .srld, hdirect hadm hi .srad⟩
  · exact ⟨hregister hadm hi h5 .slld, hregister hadm hi h5 .srld, hregister hadm hi h5 .srad⟩
  · obtain ⟨o, ho⟩ := (exists_selects_iff_div w).2 hadm.1
    rw [decode_of_selects_div p w o ho, if_neg hadm.2, if_neg (hi.trans_ne Nat.zero_ne_one),
      if_neg (h5.trans_ne Nat.one_ne_zero)]

/-! ### The line of an instruction (R58) -/

theorem disassemble_directForm (op : ShiftOp) (rd rs1 : RegNum) (count : Count) :
    disassemble (directForm op rd rs1 count) = directLine op rd rs1 count := by cases op <;> rfl

theorem disassemble_registerForm (op : ShiftOp) (rd rs1 rs2 : RegNum) :
    disassemble (registerForm op rd rs1 rs2) = registerLine op rd rs1 rs2 := by cases op <;> rfl

/-- A text that names an operation is its mnemonic (R58). -/
theorem eq_mnemonicOf_of_opOfMnemonic {m : String} {op : ShiftOp} (h : opOfMnemonic m = some op) : m = mnemonicOf op := by
  unfold opOfMnemonic at h
  split_ifs at h with hslld hsrld hsrad
  · obtain rfl := Option.some.inj h
    exact hslld
  · obtain rfl := Option.some.inj h
    exact hsrld
  · obtain rfl := Option.some.inj h
    exact hsrad

/-- The line of an instruction denotes it (R58). -/
theorem assemble_disassemble (i : Instr) : assemble (disassemble i) = some i := by
  obtain ⟨op, rd, rs1, count, rfl⟩ | ⟨op, rd, rs1, rs2, rfl⟩ := eq_directForm_or_registerForm i
  · rw [disassemble_directForm, directLine, assemble_direct, if_pos ⟨rs1.isLt, count.isLt, rd.isLt⟩]
    simp
  · rw [disassemble_registerForm, registerLine, assemble_register, if_pos ⟨rs1.isLt, rs2.isLt, rd.isLt⟩]
    simp

/-- A line that denotes an instruction is the instruction's line: its operands are in range, so narrowing them loses nothing
(R58, R59). -/
theorem eq_disassemble_of_assemble {l : AsmLine} {i : Instr} (h : assemble l = some i) : l = disassemble i := by
  obtain ⟨m, x, y, z⟩ := l
  cases hm : opOfMnemonic m with
  | none => rw [assemble_of_not_mnemonic _ hm] at h; cases h
  | some op =>
    obtain rfl := eq_mnemonicOf_of_opOfMnemonic hm
    cases x with
    | num a => rw [assemble_num_first] at h; cases h
    | reg a =>
      cases z with
      | num d => rw [assemble_num_third] at h; cases h
      | reg d =>
        cases y with
        | num c =>
          rw [assemble_direct] at h
          split at h
          · next hrange =>
            obtain ⟨ha, hc, hd⟩ := hrange
            rw [← Option.some.inj h, disassemble_directForm]
            simp [directLine, Nat.mod_eq_of_lt, ha, hc, hd]
          · cases h
        | reg b =>
          rw [assemble_register] at h
          split at h
          · next hrange =>
            obtain ⟨ha, hb, hd⟩ := hrange
            rw [← Option.some.inj h, disassemble_registerForm]
            simp [registerLine, Nat.mod_eq_of_lt, ha, hb, hd]
          · cases h

/-- Settles O12: assembling an instruction's line gives it back, and no other line assembles to it. -/
theorem assemblyLineDenotesItsInstruction : Obligations.AssemblyLineDenotesItsInstruction :=
  fun _ i => ⟨eq_disassemble_of_assemble, fun h => h ▸ assemble_disassemble i⟩

/-! ### The encoding macros (R60 to R62) -/

/-- `OP_AJIT_BITS_5_AND_6(a)` is a shifted by 5 with every bit cleared but bits 6 and 5 (R62). -/
theorem macroAjitBits_eq (a : Word) : macroAjitBits a = a <<< 5 &&& 0x60#32 := by
  rw [macroAjitBits, BitVec.shiftLeft_and_distrib]
  rfl

theorem and_low_bits_of_lt (x : Word) (n : Nat) (hn : n < 32) (h : x.toNat < 2 ^ n) :
    x &&& BitVec.ofNat 32 (2 ^ n - 1) = x := by
  have hpow : 2 ^ n < 2 ^ 32 := Nat.pow_lt_pow_right (by decide) hn
  apply BitVec.eq_of_toNat_eq
  rw [BitVec.toNat_and, BitVec.toNat_ofNat, Nat.mod_eq_of_lt (by omega), Nat.and_two_pow_sub_one_of_lt_two_pow h]

/-- Settles O10: the match words are computed; the bits of `macroAjitBits a` are the two of a and, by `macroAjitBits_eq`,
no other; the masks of `OP3` and `F3I` change no operand in range. -/
theorem encodingMacrosGiveMatchWords : Obligations.EncodingMacrosGiveMatchWords := by
  refine ⟨by decide, fun f => by cases f <;> decide, fun a => ⟨?_, ?_⟩, by decide, fun y z hy hz => ?_⟩
  · apply BitVec.eq_of_getLsbD_eq
    intro k hk
    obtain rfl | rfl : k = 0 ∨ k = 1 := by omega
    all_goals simp [macroAjitBits]
  · rw [macroAjitBits_eq, BitVec.and_assoc]
    exact BitVec.and_zero
  · have hy' : y &&& 0x3f#32 = y := and_low_bits_of_lt y 6 (by decide) hy
    have hz' : z &&& 0x1#32 = z := and_low_bits_of_lt z 1 (by decide) hz
    rw [macroF5, macroOP3, macroF3I, hy', hz']
    rfl

end Sys2Proof.Machine

/-! SUPPORT. Proofs about the results of the shifts and about what the six instructions share (R16, R17, R22, R71 to R83):
the boundary counts, each instruction's effect on its pair, the frame and the counters. -/

namespace Sys2Proof.Machine

/-! ### Boundary counts (R74) -/

theorem getLsbD_lowWord (v : DWord) {k : Nat} (hk : k < 32) : (lowWord v).getLsbD k = v.getLsbD k := by
  simp [lowWord, hk]

theorem getLsbD_highWord (v : DWord) {k : Nat} (hk : k < 32) : (highWord v).getLsbD k = v.getLsbD (32 + k) := by
  simp [highWord, hk]

theorem toNat_count_32 : (32 : Count).toNat = 32 := rfl

/-- A left shift by 32 moves the low word to the high half (R74). -/
theorem shl64_32 (v : DWord) : shl64 v 32 = pairOfWords (lowWord v) 0#32 := by
  apply BitVec.eq_of_getLsbD_eq
  intro k hk
  rw [getLsbD_shl64 v 32 hk, getLsbD_pairOfWords, toNat_count_32]
  by_cases h : k < 32
  · rw [if_neg (Nat.not_le.2 h), if_pos h, BitVec.getLsbD_zero]
  · rw [if_pos (Nat.not_lt.1 h), if_neg h, getLsbD_lowWord v (by omega)]

/-- A logical right shift by 32 moves the high word to the low half (R74). -/
theorem lshr64_32 (v : DWord) : lshr64 v 32 = pairOfWords 0#32 (highWord v) := by
  apply BitVec.eq_of_getLsbD_eq
  intro k hk
  rw [getLsbD_lshr64, getLsbD_pairOfWords, toNat_count_32]
  by_cases h : k < 32
  · rw [if_pos (by omega), if_pos h, getLsbD_highWord v h, Nat.add_comm]
  · rw [if_neg (by omega), if_neg h, BitVec.getLsbD_zero]

/-- An arithmetic right shift by 32 moves the high word to the low half (R74). -/
theorem lowWord_ashr64_32 (v : DWord) : lowWord (ashr64 v 32) = highWord v := by
  apply BitVec.eq_of_getLsbD_eq
  intro k hk
  rw [getLsbD_lowWord _ hk, getLsbD_ashr64 v 32 (by omega), getLsbD_highWord v hk, toNat_count_32,
    if_pos (by omega), Nat.add_comm]

/-- An arithmetic right shift by 32 fills the high half with the sign (R74). -/
theorem highWord_ashr64_32 (v : DWord) :
    highWord (ashr64 v 32) = if v.getLsbD 63 then 0xFFFFFFFF#32 else 0#32 := by
  apply BitVec.eq_of_getLsbD_eq
  intro k hk
  have hones : (0xFFFFFFFF#32).getLsbD k = decide (k < 32) := BitVec.getLsbD_allOnes
  rw [getLsbD_highWord _ hk, getLsbD_ashr64 v 32 (by omega), toNat_count_32, if_neg (by omega)]
  cases v.getLsbD 63 <;> simp [hones, hk]

/-- Settles O16: count 0 shifts by nothing; the words of counts 32 are above; of count 63 one bit is in range. -/
theorem boundaryCounts : Obligations.BoundaryCounts := by
  have h63 : (63 : Count).toNat = 63 := rfl
  refine fun v => ⟨⟨?_, ?_, ?_⟩, ⟨shl64_32 v, lshr64_32 v, lowWord_ashr64_32 v, highWord_ashr64_32 v⟩,
    fun k hk => ?_, fun k hk => ?_, fun k hk => ?_⟩
  · exact (shl64_eq_shiftLeft v 0).trans (BitVec.shiftLeft_zero v)
  · exact (lshr64_eq_ushiftRight v 0).trans (BitVec.ushiftRight_zero v)
  · exact (ashr64_eq_sshiftRight v 0).trans BitVec.sshiftRight_zero
  · rw [getLsbD_shl64 v 63 hk, h63]
    by_cases h : k = 63
    · subst h; simp
    · rw [if_neg (by omega)]; simp [h]
  · rw [getLsbD_lshr64, h63]
    by_cases h : k = 0
    · subst h; simp
    · rw [if_neg (by omega)]; simp [h]
  · rw [getLsbD_ashr64 v 63 hk, h63]
    by_cases h : k = 0
    · subst h; simp
    · rw [if_neg (by omega)]

/-- Settles O17: bit 63 of the two results differs when the sign is set and the count is not 0; without a sign the two
shifts of bit vectors agree. -/
theorem arithmeticShiftAgreesOnPositive : Obligations.ArithmeticShiftAgreesOnPositive := by
  intro v c
  constructor
  · intro h
    have hbit : (ashr64 v c).getLsbD 63 = (lshr64 v c).getLsbD 63 := by rw [h]
    rw [getLsbD_ashr64 v c (by decide), getLsbD_lshr64] at hbit
    by_cases hc : c = 0#6
    · exact .inr hc
    · have hpos : 0 < c.toNat := by bv_omega
      rw [if_neg (by omega), if_neg (by omega)] at hbit
      exact .inl hbit
  · rw [ashr64_eq_sshiftRight, lshr64_eq_ushiftRight]
    rintro (hsign | rfl)
    · exact BitVec.sshiftRight_eq_of_msb_false (by rw [BitVec.msb_eq_getLsbD_last]; exact hsign)
    · exact BitVec.sshiftRight_zero.trans (BitVec.ushiftRight_zero v).symm

/-! ### The six instructions with even designators (R75 to R77, R81 to R83) -/

/-- A direct form with even designators shifts the source pair into the destination pair by its count. -/
theorem exec_directForm_of_even (op : ShiftOp) (rd rs1 : RegNum) (count : Count) (s : State) (hrd : evenReg rd = true)
    (hrs1 : evenReg rs1 = true) :
    ∃ t, exec (directForm op rd rs1 count) s = .next t ∧
      s.shiftEffect t rd (shiftFunction op (s.readPair rs1) count) := by
  have hcompletes : s.completes (directForm op rd rs1 count) := by
    cases op <;> exact ⟨.inl ⟨hrd, hrs1⟩, nofun⟩
  have heffect := exec_shiftEffect _ s hcompletes
  rwa [rd_directForm, shiftResult_directForm, pairBase, pairBase, mask_of_even rd hrd, mask_of_even rs1 hrs1] at heffect

/-- A register form with even designators and an admitted count register shifts the source pair into the destination pair by
the low six bits of that register (R80). -/
theorem exec_registerForm_of_even (op : ShiftOp) (rd rs1 rs2 : RegNum) (s : State) (hrd : evenReg rd = true)
    (hrs1 : evenReg rs1 = true) (hrs2 : s.policies.regCountHigh = .ignore ∨ (s.readReg rs2).toNat < 64) :
    ∃ t, exec (registerForm op rd rs1 rs2) s = .next t ∧
      s.shiftEffect t rd (shiftFunction op (s.readPair rs1) (BitVec.ofNat 6 (s.readReg rs2).toNat)) := by
  rw [exec_registerForm_of_admitted op rd rs1 rs2 s hrs2]
  exact exec_directForm_of_even op rd rs1 _ s hrd hrs1

/-- Settles O21: the direct form of SLLD, its shift as one of bit vectors. -/
theorem slldImmShiftsThePair : Obligations.SlldImmShiftsThePair :=
  fun rd rs1 count s hrd hrs1 => shl64_eq_shiftLeft (s.readPair rs1) count ▸
    exec_directForm_of_even .slld rd rs1 count s hrd hrs1

/-- Settles O22: the direct form of SRLD, its shift as one of bit vectors. -/
theorem srldImmShiftsThePair : Obligations.SrldImmShiftsThePair :=
  fun rd rs1 count s hrd hrs1 => lshr64_eq_ushiftRight (s.readPair rs1) count ▸
    exec_directForm_of_even .srld rd rs1 count s hrd hrs1

/-- Settles O23: the direct form of SRAD, its shift as one of bit vectors. -/
theorem sradImmShiftsThePair : Obligations.SradImmShiftsThePair :=
  fun rd rs1 count s hrd hrs1 => ashr64_eq_sshiftRight (s.readPair rs1) count ▸
    exec_directForm_of_even .srad rd rs1 count s hrd hrs1

/-- Settles O24: the register form of SLLD, its shift as one of bit vectors. -/
theorem slldRegShiftsThePair : Obligations.SlldRegShiftsThePair :=
  fun rd rs1 rs2 s hrd hrs1 hrs2 => shl64_eq_shiftLeft (s.readPair rs1) (BitVec.ofNat 6 (s.readReg rs2).toNat) ▸
    exec_registerForm_of_even .slld rd rs1 rs2 s hrd hrs1 hrs2

/-- Settles O25: the register form of SRLD, its shift as one of bit vectors. -/
theorem srldRegShiftsThePair : Obligations.SrldRegShiftsThePair :=
  fun rd rs1 rs2 s hrd hrs1 hrs2 => lshr64_eq_ushiftRight (s.readPair rs1) (BitVec.ofNat 6 (s.readReg rs2).toNat) ▸
    exec_registerForm_of_even .srld rd rs1 rs2 s hrd hrs1 hrs2

/-- Settles O26: the register form of SRAD, its shift as one of bit vectors. -/
theorem sradRegShiftsThePair : Obligations.SradRegShiftsThePair :=
  fun rd rs1 rs2 s hrd hrs1 hrs2 => ashr64_eq_sshiftRight (s.readPair rs1) (BitVec.ofNat 6 (s.readReg rs2).toNat) ▸
    exec_registerForm_of_even .srad rd rs1 rs2 s hrd hrs1 hrs2

/-! ### What the six instructions share -/

/-- Settles O30: the state after an instruction is `afterShift`, which writes the destination pair and the counters. -/
theorem frameOfEveryShift : Obligations.FrameOfEveryShift := by
  intro i s t h
  refine ⟨fun k h0 h1 => ?_, readReg_zero t, exec_sameRun i s t h⟩
  obtain ⟨-, rfl⟩ := (exec_next_iff i s t).1 h
  exact readReg_writePair_of_ne s _ k _ (evenReg_mask _) h0 h1

/-- An instruction that answers a next state has advanced the counters (R17). -/
theorem exec_counters {i : Instr} {s t : State} (h : exec i s = .next t) : t.pc = s.npc ∧ t.npc = s.npc + 4#32 := by
  obtain ⟨-, rfl⟩ := (exec_next_iff i s t).1 h
  obtain ⟨-, hpc, hnpc, -⟩ := shiftEffect_afterShift i s
  exact ⟨hpc, hnpc⟩

/-- Settles O32: `exec_counters`, the sum of words being a sum modulo 2^32. -/
theorem everyShiftAdvancesTheCounters : Obligations.EveryShiftAdvancesTheCounters := by
  intro i s t h
  obtain ⟨hpc, hnpc⟩ := exec_counters h
  exact ⟨hpc, hnpc ▸ BitVec.toNat_add s.npc 4#32⟩

/-- Settles O34: by `exec_next_iff`. -/
theorem execCompletesExactlyWhenAdmitted : Obligations.ExecCompletesExactlyWhenAdmitted :=
  fun i s => ⟨fun ⟨t, ht⟩ => ((exec_next_iff i s t).1 ht).1, fun h => ⟨_, exec_of_completes i s h⟩⟩

/-- Settles O47: `exec_counters` at npc = 0; where pc stands does not matter. -/
theorem countersWrapAtTheTop : Obligations.CountersWrapAtTheTop := by
  intro i s hcompletes _ hnpc
  have hexec := exec_of_completes i s hcompletes
  obtain ⟨hpc', hnpc'⟩ := exec_counters hexec
  exact ⟨_, hexec, hpc'.trans hnpc, by rw [hnpc', hnpc]; rfl⟩

end Sys2Proof.Machine

/-! SUPPORT. Proofs about a step and a run (R17, R31, R34 to R36, R93, R97, R110, R112): what each part of a step answers,
the order of its conditions, the start of a run, and the invariant that every step keeps. -/

namespace Sys2Proof.Machine

/-! ### Alignment (R17, R36) -/

theorem alignedAddr_iff (a : Word) : alignedAddr a = true ↔ a.toNat % 4 = 0 := by simp [alignedAddr]

theorem toNat_add_mul_four_mod (a : Word) (k : Nat) (h : a.toNat % 4 = 0) :
    (a + BitVec.ofNat 32 (4 * k)).toNat % 4 = 0 := by
  rw [BitVec.toNat_add, BitVec.toNat_ofNat]
  omega

theorem alignedAddr_add_four {a : Word} (h : alignedAddr a = true) : alignedAddr (a + 4#32) = true :=
  (alignedAddr_iff _).2 (toNat_add_mul_four_mod a 1 ((alignedAddr_iff a).1 h))

/-! ### What a fetch answers (R34, R112) -/

/-- A program address whose word is not in the memory is refused (log 7). -/
theorem fetch_of_no_word (s : State) (hpc : alignedAddr s.pc = true) (hnpc : alignedAddr s.npc = true)
    (hin : s.inProgram s.pc = true) (hword : s.mem.readWord s.pc = none) : fetch s = .refused .fetchOutsideProgram := by
  simp [fetch, hpc, hnpc, hin, hword]

/-- Of aligned counters, a pc that is no program address is the end of the run or is refused (R34, R112). -/
theorem fetch_of_not_inProgram (s : State) (hpc : alignedAddr s.pc = true) (hnpc : alignedAddr s.npc = true)
    (hin : ¬s.inProgram s.pc = true) :
    fetch s = .refused (if s.pc = s.endPc then .endOfRun else .fetchOutsideProgram) := by
  rw [fetch, if_pos (by rw [hpc, hnpc]; rfl), if_neg hin]
  exact (apply_ite Host.Outcome.refused _ _ _).symm

theorem not_inProgram_iff (s : State) (a : Word) :
    ¬s.inProgram a = true ↔ ∀ k < s.programLen, a ≠ s.startPc + BitVec.ofNat 32 (4 * k) := by
  rw [inProgram_iff]
  simp only [not_exists, not_and, ne_eq]

/-- In a program shorter than the address space the address after the last word is no program address (R112). -/
theorem not_inProgram_endPc (s : State) (hlen : s.programLen < 2 ^ 30) : ¬s.inProgram s.endPc = true := by
  intro hin
  have hoffset : (s.endPc - s.startPc).toNat = 4 * s.programLen := by
    rw [State.endPc]
    bv_omega
  exact absurd (offset_lt_of_inProgram s s.endPc hin) (by omega)

/-! ### What a step answers, by the part that decides (R70, R97) -/

theorem step_of_fetch_refused {s : State} {e : Refusal} (h : fetch s = .refused e) : step s = .refused e := by
  rw [step, h]
  rfl

/-- A word that is fetched and decoded is executed. -/
theorem step_of_decode_ok {s : State} {w : Word} {i : Instr} (hw : fetch s = .next w)
    (hi : decode s.policies.unusedBits w = .ok i) : step s = exec i s := by
  rw [step, hw, andThen_of_next, decodeFetched, hi]
  rfl

/-- The only refusals of an instruction are those of its designators and of its count (R16, R80). -/
theorem exec_refused {i : Instr} {s : State} {e : Refusal} (h : exec i s = .refused e) :
    e = .oddPairRegister ∨ e = .countRegisterHighBits := by
  rw [exec_eq] at h
  split_ifs at h
  · exact .inr (Host.Outcome.refused.inj h).symm
  · exact .inl (Host.Outcome.refused.inj h).symm

/-- The refusals of a misaligned counter and of an ended run come from the fetch alone (R36, R112). -/
theorem fetch_refused_of_step {s : State} {e : Refusal} (h : step s = .refused e)
    (he : e = .misalignedFetch ∨ e = .endOfRun) : fetch s = .refused e := by
  cases hw : fetch s with
  | refused r => exact congrArg _ (Host.Outcome.refused.inj ((step_of_fetch_refused hw).symm.trans h))
  | fault f => exact absurd hw (fetch_ne_fault s f)
  | next w =>
    exfalso
    cases hd : decode s.policies.unusedBits w with
    | error d =>
      obtain rfl := Host.Outcome.refused.inj ((step_of_decode_error hw hd).symm.trans h)
      cases d <;> simp [refusalOf] at he
    | ok i =>
      rcases exec_refused ((step_of_decode_ok hw hd).symm.trans h) with rfl | rfl <;> simp at he

/-- A step faults only where the instruction that it decodes does. -/
theorem exec_fault_of_step {s : State} {f : Fault} (h : step s = .fault f) :
    ∃ w i, fetch s = .next w ∧ decode s.policies.unusedBits w = .ok i ∧ exec i s = .fault f := by
  cases hw : fetch s with
  | refused r => cases (step_of_fetch_refused hw).symm.trans h
  | fault g => exact absurd hw (fetch_ne_fault s g)
  | next w =>
    cases hd : decode s.policies.unusedBits w with
    | error d => cases (step_of_decode_error hw hd).symm.trans h
    | ok i => exact ⟨w, i, rfl, hd, (step_of_decode_ok hw hd).symm.trans h⟩

/-! ### The word at an address -/

/-- An aligned word is its four bytes: no address of theirs wraps round the top of the address space (R35). -/
theorem readWord_of_bytes {m : Memory} {a : Word} {b0 b1 b2 b3 : Byte} (ha : a.toNat % 4 = 0)
    (h0 : m.readByte a.toNat = some b0) (h1 : m.readByte (a.toNat + 1) = some b1)
    (h2 : m.readByte (a.toNat + 2) = some b2) (h3 : m.readByte (a.toNat + 3) = some b3) :
    m.readWord a = some (wordOfBytes b0 b1 b2 b3) := by
  have h1' : (a + 1#32).toNat = a.toNat + 1 := by bv_omega
  have h2' : (a + 2#32).toNat = a.toNat + 2 := by bv_omega
  have h3' : (a + 3#32).toNat = a.toNat + 3 := by bv_omega
  simp only [Memory.readWord, h1', h2', h3', h0, h1, h2, h3]

theorem decode_of_decodeBytes {p : UnusedBitsPolicy} {b0 b1 b2 b3 : Byte} {i : Instr} {rest : List Byte}
    (h : decodeBytes p [b0, b1, b2, b3] = .ok (i, rest)) : decode p (wordOfBytes b0 b1 b2 b3) = .ok i := by
  rw [decodeBytes] at h
  cases hd : decode p (wordOfBytes b0 b1 b2 b3) with
  | ok j => rw [hd] at h; cases h; rfl
  | error e => rw [hd] at h; cases h

/-- Word k of a placed program reads at `start + 4*k` (R31). -/
theorem readWord_withProgram (s : State) (start : Word) (ws : List Word) (hlen : ws.length ≤ 2 ^ 30) (k : Nat)
    (hk : k < ws.length) : (s.withProgram start ws).mem.readWord (start + BitVec.ofNat 32 (4 * k)) = some ws[k] := by
  have hbyte (j : Nat) (hj : j < 4) :
      (s.withProgram start ws).mem.readByte (start + BitVec.ofNat 32 (4 * k) + BitVec.ofNat 32 j).toNat =
        some (byteOfWord ws[k] j) := by
    rw [BitVec.add_assoc, ← BitVec.ofNat_add]
    exact readByte_withProgram s start ws hlen k j hk hj
  have h0 := hbyte 0 (by decide)
  rw [BitVec.add_zero] at h0
  simp only [Memory.readWord, h0, hbyte 1 (by decide), hbyte 2 (by decide), hbyte 3 (by decide)]
  exact congrArg some (wordOfBytes_byteOfWord _)

/-! ### The statements on fetch and step -/

/-- Settles O35: the four bytes are the word that is fetched, and the step executes what it decodes to. -/
theorem stepRunsTheDecodedInstruction : Obligations.StepRunsTheDecodedInstruction := by
  intro s b0 b1 b2 b3 i k hpc hnpc hk haddr h0 h1 h2 h3 hdecode
  have hfetch : fetch s = .next (wordOfBytes b0 b1 b2 b3) :=
    (fetch_next s _).2 ⟨(alignedAddr_iff _).2 hpc, (alignedAddr_iff _).2 hnpc, (inProgram_iff s _).2 ⟨k, hk, haddr⟩,
      readWord_of_bytes hpc h0 h1 h2 h3⟩
  exact step_of_decode_ok hfetch (decode_of_decodeBytes hdecode)

/-- Settles O38: a program address holds its word, and an offset of `4*PROGRAM_LEN` or more is no program address. -/
theorem fetchReturnsTheProgramWord : Obligations.FetchReturnsTheProgramWord := by
  intro s start npc ws hlen hstart hnpc
  have hnpc' := (alignedAddr_iff npc).2 hnpc
  refine ⟨fun k hk => ?_, ?_, fun pc hpc hoffset => ?_⟩
  · exact (fetch_next _ _).2 ⟨(alignedAddr_iff _).2 (toNat_add_mul_four_mod start k hstart), hnpc',
      (inProgram_iff _ _).2 ⟨k, hk, rfl⟩, readWord_withProgram s start ws hlen.le k hk⟩
  · have hfetch := fetch_of_not_inProgram
      { s.withProgram start ws with pc := start + BitVec.ofNat 32 (4 * ws.length), npc := npc }
      ((alignedAddr_iff _).2 (toNat_add_mul_four_mod start ws.length hstart)) hnpc' (not_inProgram_endPc _ hlen)
    exact step_of_fetch_refused (hfetch.trans (congrArg _ (if_pos rfl)))
  · have hfetch := fetch_of_not_inProgram { s.withProgram start ws with pc := pc, npc := npc }
      ((alignedAddr_iff _).2 hpc) hnpc' fun hin => absurd (offset_lt_of_inProgram _ pc hin) hoffset.not_gt
    have hne : pc ≠ start + BitVec.ofNat 32 (4 * ws.length) := by bv_omega
    exact step_of_fetch_refused (hfetch.trans (congrArg _ (if_neg hne)))

/-- Settles O39: `step_next`, `fetch_next`, `inProgram_iff` and `exec_next_iff`, one after the other. -/
theorem stepCompletesExactlyWhen : Obligations.StepCompletesExactlyWhen := by
  refine fun s => ⟨fun ⟨t, ht⟩ => ?_, fun ⟨hpc, hnpc, hin, w, i, hword, hdecode, hcompletes⟩ => ?_⟩
  · obtain ⟨w, i, hw, hdecode, hexec⟩ := (step_next s t).1 ht
    obtain ⟨hpc, hnpc, hin, hword⟩ := (fetch_next s w).1 hw
    exact ⟨(alignedAddr_iff _).1 hpc, (alignedAddr_iff _).1 hnpc, (inProgram_iff s _).1 hin, w, i, hword, hdecode,
      ((exec_next_iff i s t).1 hexec).1⟩
  · have hfetch := (fetch_next s w).2
      ⟨(alignedAddr_iff _).2 hpc, (alignedAddr_iff _).2 hnpc, (inProgram_iff s _).2 hin, hword⟩
    exact ⟨_, (step_of_decode_ok hfetch hdecode).trans (exec_of_completes i s hcompletes)⟩

/-- Settles O40: each clause is the equation of the part of the step that decides. -/
theorem firstConditionDecides : Obligations.FirstConditionDecides := by
  refine fun s => ⟨fun h => ?_, fun h => ?_, fun hpc hnpc => ?_, fun w hw => ⟨fun e he => ?_, fun i hi => ?_⟩⟩
  · exact step_of_misaligned s fun ⟨hpc, _⟩ => h ((alignedAddr_iff _).1 hpc)
  · exact step_of_misaligned s fun ⟨_, hnpc⟩ => h ((alignedAddr_iff _).1 hnpc)
  · have hpc' := (alignedAddr_iff _).2 hpc
    have hnpc' := (alignedAddr_iff _).2 hnpc
    have houtside (hnone : ∀ k < s.programLen, s.pc ≠ s.startPc + BitVec.ofNat 32 (4 * k)) :=
      step_of_fetch_refused (fetch_of_not_inProgram s hpc' hnpc' ((not_inProgram_iff s _).2 hnone))
    refine ⟨fun hnone => ?_, fun hnone hend => ?_, fun hin => ⟨fun hword => ?_, fun w hword => ?_⟩⟩
    · exact (houtside fun k hk => hnone k hk.le).trans (congrArg _ (if_neg (hnone s.programLen le_rfl)))
    · exact (houtside hnone).trans (congrArg _ (if_pos hend))
    · exact step_of_fetch_refused (fetch_of_no_word s hpc' hnpc' ((inProgram_iff s _).2 hin) hword)
    · exact (fetch_next s w).2 ⟨hpc', hnpc', (inProgram_iff s _).2 hin, hword⟩
  · exact ⟨step_of_decode_error hw he, fun htruncated => decode_ne_truncated _ w (htruncated ▸ he)⟩
  · rw [step_of_decode_ok hw hi]
    refine ⟨fun hodd hp => ?_, fun hodd hp => (exec_fault_iff i s _).2 ⟨hp, hodd⟩, fun hpairs hcount => ?_⟩
    · rw [exec_eq, if_neg (by simp [pairsAdmitted_iff_wellFormed, hodd, hp]), if_pos hp]
    · rw [exec_eq, if_pos hpairs, if_neg hcount]

/-- Settles O41: a step faults where its instruction does, which `exec_fault_iff` describes. -/
theorem stepFaultsOnlyOnOddPairUnderTrapPolicy : Obligations.StepFaultsOnlyOnOddPairUnderTrapPolicy := by
  intro s f h
  obtain ⟨w, i, hw, hi, hexec⟩ := exec_fault_of_step h
  obtain ⟨hpolicy, hodd⟩ := (exec_fault_iff i s f).1 hexec
  exact ⟨hpolicy, w, i, hw, hi, hodd⟩

/-! ### The start of a run (R110) -/

/-- The address of a listed cell holds a byte. -/
theorem readByte_isSome_of_mem {m : Memory} {c : Host.Cell} (h : c ∈ m) : (m.readByte c.1).isSome = true := by
  induction m with
  | nil => cases h
  | cons d rest ih =>
    rw [Memory.readByte]
    split
    · rfl
    · next hne =>
      rcases List.mem_cons.1 h with rfl | hrest
      · exact absurd rfl hne
      · exact ih hrest

/-- A placed program stands in the memory, and nothing else does (R31). -/
theorem programPlaced_withProgram (s : State) (start : Word) (ws : List Word) (hlen : ws.length ≤ 2 ^ 30) :
    (s.withProgram start ws).programPlaced := by
  refine ⟨fun c hc => ?_, fun k hk => ?_⟩
  · by_contra hbehind
    have haddr : (BitVec.ofNat 32 c.1).toNat = c.1 := Nat.mod_eq_of_lt ((withProgram_mem_wf s start ws).2 c hc)
    have hoffset : 4 * ws.length ≤ (BitVec.ofNat 32 c.1 - start).toNat := by
      rw [withProgram_startPc, withProgram_programLen] at hbehind
      omega
    have hnone := readByte_withProgram_outside s start _ ws hlen hoffset
    have hsome := readByte_isSome_of_mem hc
    rw [← haddr, hnone] at hsome
    cases hsome
  · rw [withProgram_startPc, readWord_withProgram s start ws hlen k hk]
    rfl

/-- What the registers of a start state read (R110). -/
theorem readReg_start (regs : Vector Word 32) (start : Word) (ws : List Word) (pol : Policies) (k : Nat) (hk : k < 32)
    (h0 : k ≠ 0) : (State.start regs start ws pol).readReg (BitVec.ofNat 5 k) = regs[k] := by
  have hne : BitVec.ofNat 5 k ≠ 0#5 := by bv_omega
  rw [State.readReg, if_neg hne]
  simp [State.start, Nat.mod_eq_of_lt hk, h0.symm]

/-- Settles O43: the program is placed as `withProgram` places it, and the other fields are as given. -/
theorem startStateIsAdmissible : Obligations.StartStateIsAdmissible := by
  intro regs start ws pol hstart hlen
  have haligned := (alignedAddr_iff start).2 hstart
  refine ⟨rfl, rfl, readReg_zero _, fun k hk h0 => readReg_start regs start ws pol k hk h0, rfl, rfl, ?_, haligned, rfl,
    haligned, hlen, withProgram_mem_wf State.reset start ws, programPlaced_withProgram State.reset start ws hlen.le⟩
  simp [State.start]

/-- Settles O42: the state at reset is the start state of the empty program. -/
theorem resetIsAnAdmissibleStart : Obligations.ResetIsAnAdmissibleStart := by
  obtain ⟨hpc, hnpc, hzero, -, -, -, hadmissible⟩ :=
    startStateIsAdmissible (Vector.replicate 32 defaultRegister) defaultStartPc [] defaultPolicies rfl (by decide)
  exact ⟨hzero, hpc, rfl, hnpc, hadmissible⟩

/-! ### The invariant (R12, R17, R31, R36) -/

@[simp] theorem afterShift_pc (i : Instr) (s : State) : (afterShift i s).pc = s.npc := by simp [afterShift]
@[simp] theorem afterShift_npc (i : Instr) (s : State) : (afterShift i s).npc = s.npc + 4#32 := by simp [afterShift]
@[simp] theorem afterShift_startPc (i : Instr) (s : State) : (afterShift i s).startPc = s.startPc := by simp [afterShift]
@[simp] theorem afterShift_programLen (i : Instr) (s : State) : (afterShift i s).programLen = s.programLen := by
  simp [afterShift]
@[simp] theorem afterShift_mem (i : Instr) (s : State) : (afterShift i s).mem = s.mem := by simp [afterShift]
@[simp] theorem afterShift_cell_zero (i : Instr) (s : State) : (afterShift i s).regs[0] = s.regs[0] :=
  writePair_cell_zero s _ _

/-- An instruction keeps the invariant: it writes neither the cell of x[0] nor the program, and it advances both counters
by one word. -/
theorem admissible_afterShift (i : Instr) {s : State} (h : s.admissible) : (afterShift i s).admissible := by
  obtain ⟨hzero, hpc, hnpc, hstart, hlen, hwf, hplaced⟩ := h
  have haligned : alignedAddr s.npc = true := hnpc ▸ alignedAddr_add_four hpc
  simp only [State.admissible, State.programPlaced, afterShift_cell_zero, afterShift_pc, afterShift_npc,
    afterShift_startPc, afterShift_programLen, afterShift_mem, true_and]
  exact ⟨hzero, haligned, hstart, hlen, hwf, hplaced⟩

/-- Settles O44: a step that answers next leaves the state after its instruction, which keeps the invariant. -/
theorem stepKeepsAdmissible : Obligations.StepKeepsAdmissible := by
  intro s t hs ht
  obtain ⟨_, i, -, -, hexec⟩ := (step_next s t).1 ht
  obtain ⟨-, rfl⟩ := (exec_next_iff i s t).1 hexec
  exact admissible_afterShift i hs

/-! ### Fetching in an admissible state -/

/-- Everything a fetch answers in an admissible state: the word at a program address, the end of the run at the address
after the last word, and elsewhere the refusal of R34. -/
theorem fetch_of_admissible {s : State} (h : s.admissible) :
    (s.inProgram s.pc = true → ∃ w, fetch s = .next w) ∧
    (¬s.inProgram s.pc = true → fetch s = .refused (if s.pc = s.endPc then .endOfRun else .fetchOutsideProgram)) := by
  obtain ⟨-, hpc, hnpc, -, -, -, -, hwords⟩ := h
  have hnpc' : alignedAddr s.npc = true := hnpc ▸ alignedAddr_add_four hpc
  refine ⟨fun hin => ?_, fetch_of_not_inProgram s hpc hnpc'⟩
  obtain ⟨k, hk, haddr⟩ := (inProgram_iff s _).1 hin
  obtain ⟨w, hw⟩ := Option.isSome_iff_exists.1 (hwords k hk)
  exact ⟨w, (fetch_next s w).2 ⟨hpc, hnpc', hin, haddr ▸ hw⟩⟩

/-- Settles O45: `fetch_of_admissible` answers no refusal of a misaligned counter, a word at every program address, and
R34's refusal outside. -/
theorem admissibleStateFetches : Obligations.AdmissibleStateFetches := by
  intro s h
  obtain ⟨hinside, houtside⟩ := fetch_of_admissible h
  refine ⟨fun hstep => ?_, fun hin => hinside ((inProgram_iff s _).2 hin), fun hnone => ?_⟩
  · have hfetch := fetch_refused_of_step hstep (.inl rfl)
    by_cases hin : s.inProgram s.pc = true
    · obtain ⟨w, hw⟩ := hinside hin
      cases hw.symm.trans hfetch
    · have hrefusal := Host.Outcome.refused.inj ((houtside hin).symm.trans hfetch)
      split at hrefusal <;> cases hrefusal
  · have hin : ¬s.inProgram s.pc = true := (not_inProgram_iff s _).2 fun k hk => hnone k hk.le
    exact step_of_fetch_refused ((houtside hin).trans (congrArg _ (if_neg (hnone s.programLen le_rfl))))

/-- Settles O46: the end of the run is what a fetch answers at the address after the last word, which is no program address,
and nowhere else. -/
theorem runEndsAfterTheLastWord : Obligations.RunEndsAfterTheLastWord := by
  intro s h
  obtain ⟨hinside, houtside⟩ := fetch_of_admissible h
  obtain ⟨-, -, -, -, hlen, -⟩ := h
  refine ⟨fun hended => ?_, fun hend => ?_⟩
  · have hfetch := fetch_refused_of_step hended (.inr rfl)
    by_cases hin : s.inProgram s.pc = true
    · obtain ⟨w, hw⟩ := hinside hin
      cases hw.symm.trans hfetch
    · by_contra hne
      cases ((houtside hin).trans (congrArg _ (if_neg hne))).symm.trans hfetch
  · have hin : ¬s.inProgram s.pc = true := hend ▸ not_inProgram_endPc s hlen
    exact step_of_fetch_refused ((houtside hin).trans (congrArg _ (if_pos hend)))

end Sys2Proof.Machine
